-- ==== Sys2Proof/Word.lean ====
section
/-! DEFINITION. The unsigned integers of spec/00_scope.md R8. Values the manual treats as bits are bit vectors;
`+` on them is addition modulo 2^n (R10, R102), `&&&`, `|||`, `^^^`, `~~~`, `>>>`, `<<<` are R10's operators, and
`x ++ y` is R9's concatenation with `x` in the more significant position. -/

namespace Sys2Proof

/-- 8-bit unsigned integers (R8). -/
abbrev U8 := BitVec 8

/-- 32-bit unsigned integers (R8). -/
abbrev U32 := BitVec 32

/-- 64-bit unsigned integers (R8). -/
abbrev U64 := BitVec 64

end Sys2Proof
end

