-- ==== Sys2Proof/Config.lean ====
section
/-! DEFINITION. The free values of spec/93_implementation_defined.md ("any value (a model draws a free value; no proof
may depend on it)"). Each is a constant with no body, applied to the number of the draw, which State counts in `draws`.
DESIGN CHOICE, safe, notes/assumptions/5.md and 6.md. -/

namespace Sys2Proof.Config

/-- The word a read returns where the spec says "any value": while BUSY = 1 (70_reset_and_hazards.md R236, U3) and
while reset is asserted (R230, U4). -/
opaque freeRead : Nat → U32

/-- The 64 bytes of BUF where the spec makes BUF unspecified: after a successful FINALIZE (43_finalize.md R175) and after
a reset event (70_reset_and_hazards.md R230), U5. -/
opaque freeBuf : Nat → Vector U8 64

/-- PENDING after a reset event (70_reset_and_hazards.md R230, U6). -/
opaque freePending : Nat → U64

end Sys2Proof.Config
end

