-- ==== Sys2Proof/Machine/BitOps.lean ====
section
/-! DEFINITION. The bitwise function unit, spec/40_bitops.md. Pure functions of 32-bit words, total, no flags (R110).
There is no parity function (R109, spec/90_conflicts.md C6). -/

namespace Sys2Proof.Machine

/-- 32-bit rotate right (R100). -/
def rotr (x : U32) (n : Nat) : U32 := (x >>> n) ||| (x <<< (32 - n))

/-- Logical, zero-filling right shift (R101). -/
def shr (x : U32) (n : Nat) : U32 := x >>> n

/-- Addition modulo 2^32 (R102). -/
def add32 (x y : U32) : U32 := x + y

/-- Choose (R103). -/
def ch (x y z : U32) : U32 := (x &&& y) ^^^ (~~~x &&& z)

/-- Majority (R104). -/
def maj (x y z : U32) : U32 := (x &&& y) ^^^ (x &&& z) ^^^ (y &&& z)

/-- Σ0 (R105). -/
def bigSigma0 (x : U32) : U32 := rotr x 2 ^^^ rotr x 13 ^^^ rotr x 22

/-- Σ1 (R106). -/
def bigSigma1 (x : U32) : U32 := rotr x 6 ^^^ rotr x 11 ^^^ rotr x 25

/-- σ0 (R107). -/
def smallSigma0 (x : U32) : U32 := rotr x 7 ^^^ rotr x 18 ^^^ shr x 3

/-- σ1 (R108). -/
def smallSigma1 (x : U32) : U32 := rotr x 17 ^^^ rotr x 19 ^^^ shr x 10

end Sys2Proof.Machine
end

