-- ==== Sys2Proof/Machine/Compression.lean ====
section
/-! DEFINITION. The compression core, spec/42_compression.md: block expansion, round processor, state mixer. The
schedule and the working variables are locals, not state (10_state.md R29, spec/92_eei_decisions.md D27). -/

namespace Sys2Proof.Machine

/-- The working variables `a..h` (R144). -/
structure Working where
  a : U32
  b : U32
  c : U32
  d : U32
  e : U32
  f : U32
  g : U32
  h : U32
deriving DecidableEq, Repr

/-- The big-endian 32-bit words of a byte string, four bytes a word (R143; 00_scope.md R11). -/
def bigEndianWords : List U8 → List U32
  | b0 :: b1 :: b2 :: b3 :: rest => (b0 ++ b1 ++ b2 ++ b3) :: bigEndianWords rest
  | _ => []

/-- The 16 words `M[0..15]` of a 64-byte block (R143). -/
def blockWords (block : Vector U8 64) : List U32 := bigEndianWords block.toList

/-- `W[t]` for `t ≥ 16` from the words before it, newest first: `σ1(W[t-2]) + W[t-7] + σ0(W[t-15]) + W[t-16]` (R142). -/
def nextScheduleWord (w : List U32) : U32 :=
  add32 (add32 (add32 (smallSigma1 (w.getD 1 0)) (w.getD 6 0)) (smallSigma0 (w.getD 14 0))) (w.getD 15 0)

/-- `n` more schedule words, newest first. -/
def extendSchedule : Nat → List U32 → List U32
  | 0, w => w
  | n + 1, w => extendSchedule n (nextScheduleWord w :: w)

/-- Block expansion: `EXPAND(M[0..15]) -> W[0..63]` (R142). -/
def expand (m : List U32) : List U32 := (extendSchedule 48 m.reverse).reverse

/-- Working-variable initialisation from `H` (R144). -/
def initWorking (h : Vector U32 8) : Working := ⟨h[0], h[1], h[2], h[3], h[4], h[5], h[6], h[7]⟩

/-- `T1 = h + Σ1(e) + Ch(e, f, g) + K[t] + W[t]` (R146). -/
def temp1 (k w : U32) (v : Working) : U32 :=
  add32 (add32 (add32 (add32 v.h (bigSigma1 v.e)) (ch v.e v.f v.g)) k) w

/-- `T2 = Σ0(a) + Maj(a, b, c)` (R146). -/
def temp2 (v : Working) : U32 := add32 (bigSigma0 v.a) (maj v.a v.b v.c)

/-- One round with its constant `K[t]` and schedule word `W[t]`, all right-hand sides from before the round (R146). -/
def round (k w : U32) (v : Working) : Working :=
  ⟨add32 (temp1 k w v) (temp2 v), v.a, v.b, v.c, add32 v.d (temp1 k w v), v.e, v.f, v.g⟩

/-- The round processor: the rounds of a schedule in order, round `t` with `K[t]` and `W[t]` (R145). -/
def rounds (w : List U32) (v : Working) : Working :=
  (roundConstants.zip w).foldl (fun v kw => round kw.1 kw.2 v) v

/-- The state mixer: the working variables added into `H` (R147). -/
def mix (h : Vector U32 8) (v : Working) : Vector U32 8 :=
  #v[add32 h[0] v.a, add32 h[1] v.b, add32 h[2] v.c, add32 h[3] v.d,
     add32 h[4] v.e, add32 h[5] v.f, add32 h[6] v.g, add32 h[7] v.h]

/-- The compression function `COMPRESS(H, B)` (R148). -/
def compress (h : Vector U32 8) (block : Vector U8 64) : Vector U32 8 :=
  mix h (rounds (expand (blockWords block)) (initWorking h))

end Sys2Proof.Machine
end

