-- ==== Sys2Proof/Syntax.lean ====
section
/-! DEFINITION. The instructions of spec/opcode_table.json, one constructor a row, and the bits they are spelled with. -/

namespace Sys2Proof

/-- The four commands of 30_encoding.md R82 and the read transaction of R87. -/
inductive Instr where
  /-- INIT (44_control.md R190). -/
  | init
  /-- APPEND: the byte count LEN = CW[6:4] (0 to 7, of which 5 to 7 raise ERR_ARG) and DATA = CW[63:32] (R81, R84). -/
  | append (len : BitVec 3) (data : U32)
  /-- FINALIZE (43_finalize.md R170). -/
  | finalize
  /-- CLR_ERR (44_control.md R191). -/
  | clrErr
  /-- READ of the read-port word address A[7:0] (44_control.md R194). -/
  | read (addr : U8)
deriving DecidableEq, Repr

/-- The bits an instruction is spelled with: a 64-bit word on the command port (30_encoding.md R80), or an 8-bit word
address on the read port (R87). The port an instruction arrives on is part of its spelling. -/
inductive PortWord where
  | command (cw : U64)
  | readAddress (addr : U8)
deriving DecidableEq, Repr

/-- Why a command word spells no command (30_encoding.md R86). Either reason raises ERR_OPC (60_exceptions.md R210). -/
inductive Illegal where
  /-- OP is 0x0 or 0x5 to 0xF (R82). -/
  | reservedOpcode
  /-- OP names a command and a must-be-zero field is not zero (R85). -/
  | nonzeroReserved
deriving DecidableEq, Repr

end Sys2Proof
end

