-- ==== Sys2Proof/Machine/State.lean ====
section
/-! DEFINITION. The state of the core and of what drives it (spec/10_state.md), as plain data. -/

namespace Sys2Proof.Machine

/-- PHASE, the lifecycle phase (10_state.md R26). Its 2-bit encoding is `Phase.bits`; the fourth value of the encoding
"is never written by any rule" and has no name here (U14). DEDUCED, safe, notes/assumptions/9.md. -/
inductive Phase where
  | fresh
  | accumulating
  | finalized
deriving DecidableEq, Repr

/-- The error classes of 60_exceptions.md R210. -/
inductive ErrorClass where
  /-- ERR_OPC: the word spells no command. -/
  | opc
  /-- ERR_ARG: an APPEND with LEN 5 to 7. -/
  | arg
  /-- ERR_STATE: an APPEND or FINALIZE in FINALIZED. -/
  | state
deriving DecidableEq, Repr

/-- What the outside does to the core, one event after another (10_state.md R20; 20_memory.md R62; 30_encoding.md R87;
70_reset_and_hazards.md R230). DESIGN CHOICE, safe, notes/assumptions/1.md and 3.md. -/
inductive Event where
  /-- The host offers a command word, and holds it until the core accepts it (R234). -/
  | offer (cw : U64)
  /-- The host reads a word of the read port now, busy or not (R87). -/
  | read (addr : U8)
  /-- The host does nothing for as long as the core is busy. -/
  | pause
  /-- Reset is asserted (R230). -/
  | assertReset
  /-- Reset is released. -/
  | releaseReset
deriving DecidableEq, Repr

/-- What one step does. -/
inductive Action where
  /-- An instruction takes effect: the pending command completes (R235), or a read is made (R194). -/
  | run (w : PortWord)
  /-- The core accepts a command word (R234). -/
  | accept (cw : U64)
  | assertReset
  | releaseReset
  /-- Nothing happens: between commands the core holds its state (60_exceptions.md R220). -/
  | idle
deriving DecidableEq, Repr

/-- The state. The first ten fields are the spec's architectural state; the last four are the model's own. -/
structure State where
  /-- Hash state `H[0..7]` (R22). -/
  h : Vector U32 8
  /-- Block buffer `BUF[0..63]` (R23). -/
  buf : Vector U8 64
  /-- Fill count `BUF_LEN` (R24). -/
  bufLen : BitVec 6
  /-- Block counter `BLOCKS` (R25). -/
  blocks : U64
  /-- Lifecycle phase `PHASE` (R26). -/
  phase : Phase
  /-- Sticky error bit `ERR_OPC` (R27). -/
  errOpc : Bool
  /-- Sticky error bit `ERR_ARG` (R27). -/
  errArg : Bool
  /-- Sticky error bit `ERR_STATE` (R27). -/
  errState : Bool
  /-- `BUSY`: a command has been accepted and is not complete (R28). -/
  busy : Bool
  /-- `PENDING`: the accepted command word while `BUSY = 1` (R28). -/
  pending : U64
  /-- The MODEL's own: the level of the reset input, true while reset is asserted (R230). -/
  resetLine : Bool
  /-- The MODEL's own: what the host and the reset input still do, next event first. -/
  script : List Event
  /-- The MODEL's own: the words RDATA that reads have returned to the host, oldest first (R87). -/
  received : List U32
  /-- The MODEL's own: the number of free values drawn so far. -/
  draws : Nat
deriving DecidableEq, Repr

/-- Reasons the machine stops with a fault. There are none: an error "does not ... stop the core" (60_exceptions.md
R215), every command completes (70_reset_and_hazards.md R235) and every address is readable (44_control.md R194). -/
inductive Fault where
deriving DecidableEq, Repr

/-- Reasons an instruction has no meaning. -/
inductive Refusal where
  /-- Raised by an arm of `exec` whose instruction is not modelled yet; safe. No arm does: every row of
  spec/opcode_table.json has its meaning. -/
  | notModelled (mnemonic : String)
deriving DecidableEq, Repr

/-- The machine right after reset (10_state.md R38). BUF and PENDING are "unspecified" there: zero is a DESIGN CHOICE,
unsafe, notes/assumptions/7.md. The last four fields are the model's own (notes/assumptions/2.md to 5.md). -/
def State.reset : State where
  h := iv
  buf := Vector.replicate 64 0
  bufLen := 0#6
  blocks := 0#64
  phase := .fresh
  errOpc := false
  errArg := false
  errState := false
  busy := false
  pending := 0#64
  resetLine := false
  script := []
  received := []
  draws := 0

end Sys2Proof.Machine
end

