-- ==== Sys2Proof/Machine/Flags.lean ====
section
/-! DEFINITION. The status flags as the host sees them (10_state.md R31). There are no arithmetic condition codes (R40). -/

namespace Sys2Proof.Machine

/-- The 2-bit encoding of PHASE (R26). -/
def Phase.bits : Phase → BitVec 2
  | .fresh => 0
  | .accumulating => 1
  | .finalized => 2

/-- The value of STATUS: `{0[9:0], BUF_LEN[5:0], 0[4:0], ERR_STATE, ERR_ARG, ERR_OPC, 0[4:0], BUSY, PHASE[1:0]}` (R31). -/
def statusWord (s : State) : U32 :=
  0#10 ++ s.bufLen ++ 0#5 ++ BitVec.ofBool s.errState ++ BitVec.ofBool s.errArg ++ BitVec.ofBool s.errOpc ++ 0#5 ++
    BitVec.ofBool s.busy ++ s.phase.bits

/-- A read of STATUS while BUSY = 1: bit 2 (BUSY) is 1, every other bit is the free value's (R31, R236). -/
def busyStatusWord (free : U32) : U32 := free ||| 0x00000004

end Sys2Proof.Machine
end

