-- ==== Sys2Proof/Machine/Operands.lean ====
section
/-! DEFINITION. Operand assembly: the byte lanes of APPEND's DATA, of the 64-bit message length, and of the digest. Byte
order is big-endian everywhere (20_memory.md R63). -/

namespace Sys2Proof.Machine

/-- The four byte lanes of a word, most significant first: `DATA[31:24]` is the first byte (R63 (d), R84, R121). -/
def byteLanes (d : U32) : List U8 :=
  [d.extractLsb' 24 8, d.extractLsb' 16 8, d.extractLsb' 8 8, d.extractLsb' 0 8]

/-- The bytes an APPEND carries: the first `n` lanes; lanes beyond `n` are ignored (30_encoding.md R84). -/
def appendBytes (len : BitVec 3) (data : U32) : List U8 := (byteLanes data).take len.toNat

/-- The eight bytes of a 64-bit quantity, most significant first (R63 (b), 43_finalize.md R173 (d)). -/
def lengthBytes (l : U64) : List U8 :=
  [l.extractLsb' 56 8, l.extractLsb' 48 8, l.extractLsb' 40 8, l.extractLsb' 32 8,
   l.extractLsb' 24 8, l.extractLsb' 16 8, l.extractLsb' 8 8, l.extractLsb' 0 8]

/-- The message length `L = (BLOCKS * 512 + BUF_LEN * 8) mod 2^64` (43_finalize.md R170, R172). -/
def messageLength (blocks : U64) (bufLen : BitVec 6) : U64 := blocks * 512#64 + bufLen.setWidth 64 * 8#64

/-- The digest byte string: the eight words as 32 big-endian bytes, `H[0][31:24]` first (10_state.md R34, R176). -/
def digestBytes (h : Vector U32 8) : List U8 := h.toList.flatMap byteLanes

end Sys2Proof.Machine
end

