-- ==== Sys2Proof/Machine/Ops.lean ====
section
/-! DEFINITION. The named operations over the buffer and the registers that the meanings share. -/

namespace Sys2Proof.Machine

/-- `BufWrite(j, b)` (20_memory.md R60). -/
def bufWrite (j : BitVec 6) (b : U8) (buf : Vector U8 64) : Vector U8 64 := buf.set j.toNat b j.isLt

/-- `BufRead(j)` (20_memory.md R60). -/
def bufRead (j : BitVec 6) (buf : Vector U8 64) : U8 := buf[j.toNat]'j.isLt

/-- A command is complete: `BUSY <- 0` (70_reset_and_hazards.md R235). -/
def complete (s : State) : State := { s with busy := false }

/-- `raise ERR_X`, this hardware's one form of exception: the sticky bit is set, nothing else changes, and the command is
complete (00_scope.md R13, 60_exceptions.md R211). There is no handler to return from (R215, R216). -/
def raise : ErrorClass → State → State
  | .opc, s => complete { s with errOpc := true }
  | .arg, s => complete { s with errArg := true }
  | .state, s => complete { s with errState := true }

/-- The three error bits to zero, as INIT, CLR_ERR and reset do (10_state.md R27, R40). -/
def clearErrors (s : State) : State := { s with errOpc := false, errArg := false, errState := false }

/-- The fresh Hasher: what INIT and reset leave in `H`, `BUF_LEN`, `BLOCKS` and `PHASE` (44_control.md R190, R38). -/
def startFresh (s : State) : State := { s with h := iv, bufLen := 0#6, blocks := 0#64, phase := .fresh }

/-- Block-ready: the full buffer is compressed into `H`, then the buffer is reset and the counter incremented
(41_accumulator.md R124). -/
def blockReady (s : State) : State :=
  { s with h := compress s.h s.buf, bufLen := 0#6, blocks := s.blocks + 1#64 }

/-- The byte push every rule uses: the byte goes to index `BUF_LEN`, and the write at index 63 raises block-ready
(41_accumulator.md R124). -/
def push (b : U8) (s : State) : State :=
  let stored := { s with buf := bufWrite s.bufLen b s.buf }
  if s.bufLen = 63#6 then blockReady stored else { stored with bufLen := s.bufLen + 1#6 }

/-- The bytes of a list pushed in order (41_accumulator.md R121). -/
def pushAll (bs : List U8) (s : State) : State := bs.foldl (fun s b => push b s) s

/-- `while cond(BUF_LEN): push(0x00)`, with a bound on the number of pushes (43_finalize.md R170). The two loops of
FINALIZE push at most 64 bytes, so 64 is bound enough. -/
def zeroFillWhile (cond : BitVec 6 → Bool) : Nat → State → State
  | 0, s => s
  | n + 1, s => if cond s.bufLen then zeroFillWhile cond n (push 0x00 s) else s

/-- A free value has been drawn. -/
def countDraw (s : State) : State := { s with draws := s.draws + 1 }

/-- The contents of BUF become unspecified: a free value (43_finalize.md R175, 70_reset_and_hazards.md R230). -/
def forgetBuf (s : State) : State := { s with buf := Config.freeBuf s.draws }

/-- A read hands its word to the host. -/
def deliver (w : U32) (s : State) : State := { s with received := s.received ++ [w] }

/-- The reset event, reset asserted (70_reset_and_hazards.md R230): every element to its reset value, BUF and PENDING
unspecified. A command under way is abandoned (R231). -/
def assertReset (s : State) : State :=
  countDraw { complete (clearErrors (startFresh (forgetBuf s))) with
    pending := Config.freePending s.draws, resetLine := true }

/-- Reset released. -/
def releaseReset (s : State) : State := { s with resetLine := false }

/-- Acceptance of a command word: `PENDING <- CW`, `BUSY <- 1` (70_reset_and_hazards.md R234). -/
def accept (cw : U64) (s : State) : State := { s with pending := cw, busy := true }

/-- Completion of a word that spells no command, whichever way it is illegal: ERR_OPC (30_encoding.md R86,
60_exceptions.md R212). -/
def completeIllegal (_why : Illegal) (s : State) : State := raise .opc s

end Sys2Proof.Machine
end

