-- ==== Sys2Proof/Machine/Accumulator.lean ====
section
/-! DEFINITION. The block accumulator's command, spec/41_accumulator.md. -/

namespace Sys2Proof.Machine

/-- APPEND (R120 to R126; order of the checks 60_exceptions.md R212). -/
def execAppend (len : BitVec 3) (data : U32) (s : State) : Host.Outcome State Fault Refusal :=
  if 4 < len.toNat then .next (raise .arg s)
  else if s.phase = .finalized then .next (raise .state s)
  else .next (complete { pushAll (appendBytes len data) s with phase := .accumulating })

end Sys2Proof.Machine
end

