-- ==== Sys2Proof/Machine/Control.lean ====
section
/-! DEFINITION. Lifecycle control, spec/44_control.md: INIT, CLR_ERR and the read port. -/

namespace Sys2Proof.Machine

/-- INIT (R190). BUF is not cleared. -/
def execInit (s : State) : Host.Outcome State Fault Refusal :=
  .next (complete (clearErrors (startFresh s)))

/-- CLR_ERR (R191). -/
def execClrErr (s : State) : Host.Outcome State Fault Refusal :=
  .next (complete (clearErrors s))

/-- DIGESTi reads `H[i]` when FINALIZED and 0 otherwise (10_state.md R34). -/
def digestWord (i : Fin 8) (s : State) : U32 := if s.phase = .finalized then s.h[i] else 0

/-- INFO: BLOCK_BYTES = 64 in bits 7:0, DIGEST_BYTES = 32 in bits 15:8 (10_state.md R33). -/
def infoWord : U32 := 0x00002040

/-- The register map of the read port (10_state.md R30): STATUS, BLOCKS_LO, BLOCKS_HI, INFO, DIGEST0 to DIGEST7 at 0x08
to 0x0F; every other address is reserved and reads 0 (R35). -/
def registerWord (addr : U8) (s : State) : U32 :=
  if addr = 0x00#8 then statusWord s
  else if addr = 0x01#8 then s.blocks.extractLsb' 0 32
  else if addr = 0x02#8 then s.blocks.extractLsb' 32 32
  else if addr = 0x03#8 then infoWord
  else if at8 : 0x08 ≤ addr.toNat ∧ addr.toNat ≤ 0x0F then digestWord ⟨addr.toNat - 0x08, by omega⟩ s
  else 0

/-- READ (R194): the register's word while the core is idle; while BUSY = 1 a free value but for STATUS bit 2 (R236);
while reset is asserted a free value (70_reset_and_hazards.md R230). A read changes no state (30_encoding.md R87): what
it returns is added to the host's `received`, and a free value is counted. -/
def execRead (addr : U8) (s : State) : Host.Outcome State Fault Refusal :=
  if s.resetLine then .next (countDraw (deliver (Config.freeRead s.draws) s))
  else if s.busy then
    if addr = 0x00#8 then .next (countDraw (deliver (busyStatusWord (Config.freeRead s.draws)) s))
    else .next (countDraw (deliver (Config.freeRead s.draws) s))
  else .next (deliver (registerWord addr s) s)

end Sys2Proof.Machine
end

