-- ==== Sys2Proof/Machine/Finalize.lean ====
section
/-! DEFINITION. Padding and finalisation, spec/43_finalize.md. -/

namespace Sys2Proof.Machine

/-- The padding sequence of R173 with the length `l`: (a) 0x80; (b) zeros to the end of the block when fewer than 8
bytes remain; (c) zeros up to index 56; (d) the eight bytes of `l`. -/
def pushPadding (l : U64) (s : State) : State :=
  let marked := push 0x80 s
  let fits := if 56#6 < marked.bufLen then zeroFillWhile (fun n => n != 0#6) 64 marked else marked
  pushAll (lengthBytes l) (zeroFillWhile (fun n => n < 56#6) 64 fits)

/-- FINALIZE (R170 to R175). The length is taken before any padding byte (R172); BUF is unspecified afterwards (R175). -/
def execFinalize (s : State) : Host.Outcome State Fault Refusal :=
  if s.phase = .finalized then .next (raise .state s)
  else
    let padded := pushPadding (messageLength s.blocks s.bufLen) s
    .next (complete (countDraw (forgetBuf { padded with phase := .finalized })))

end Sys2Proof.Machine
end

