-- ==== Sys2Proof/Machine/Dispatch.lean ====
section
/-! DEFINITION. One arm per instruction: the effect of a command at its completion (60_exceptions.md R212), and of a read. -/

namespace Sys2Proof.Machine

def exec (i : Instr) (s : State) : Host.Outcome State Fault Refusal :=
  match i with
  | .init => Sys2Proof.Machine.execInit s
  | .append len data => Sys2Proof.Machine.execAppend len data s
  | .finalize => Sys2Proof.Machine.execFinalize s
  | .clrErr => Sys2Proof.Machine.execClrErr s
  | .read addr => Sys2Proof.Machine.execRead addr s

end Sys2Proof.Machine
end

