-- ==== Sys2Proof/WellFormed.lean ====
section
/-! DEFINITION. What counts as a well-formed instruction and a well-formed command word. -/

namespace Sys2Proof

/-- Every operand has a legal value: an APPEND's byte count is 0 to 4 (30_encoding.md R81 "0..4 legal"). A byte count of
5 to 7 is an instruction too, and decodes; it raises ERR_ARG (41_accumulator.md R123). -/
def Instr.wellFormed : Instr → Bool
  | .init => true
  | .append len _ => len.toNat ≤ 4
  | .finalize => true
  | .clrErr => true
  | .read _ => true

/-- One row of the match and mask list of 30_encoding.md R83. -/
structure MatchRow where
  mnemonic : String
  bits : U64
  mask : U64
deriving DecidableEq, Repr

/-- A word is the row's command when `CW & mask == match` (R83). -/
def MatchRow.accepts (r : MatchRow) (cw : U64) : Bool := cw &&& r.mask == r.bits

/-- The match and mask list of R83, in the order of spec/opcode_table.json. -/
def matchRows : List MatchRow :=
  [⟨"INIT", 0x0000000000000001, 0xFFFFFFFFFFFFFFFF⟩,
   ⟨"APPEND", 0x0000000000000002, 0x00000000FFFFFF8F⟩,
   ⟨"FINALIZE", 0x0000000000000003, 0xFFFFFFFFFFFFFFFF⟩,
   ⟨"CLR_ERR", 0x0000000000000004, 0xFFFFFFFFFFFFFFFF⟩]

/-- The word spells a command: its OP is assigned and its must-be-zero fields are zero (R85, R86). -/
def commandWordWellFormed (cw : U64) : Bool := matchRows.any (·.accepts cw)

/-- A read address is always well formed: "every address is readable" (44_control.md R194). -/
def PortWord.wellFormed : PortWord → Bool
  | .command cw => commandWordWellFormed cw
  | .readAddress _ => true

end Sys2Proof
end

