-- ==== Sys2Proof/Decode.lean ====
section
/-! DEFINITION. The decoder of 30_encoding.md R83, total on all words, and the encoder of R81 and R89. -/

namespace Sys2Proof

/-- OP = CW[3:0] (R81). -/
def fieldOp (cw : U64) : BitVec 4 := cw.extractLsb' 0 4

/-- LEN = CW[6:4] (R81). -/
def fieldLen (cw : U64) : BitVec 3 := cw.extractLsb' 4 3

/-- RSV = CW[31:7] (R81). -/
def fieldRsv (cw : U64) : BitVec 25 := cw.extractLsb' 7 25

/-- DATA = CW[63:32] (R81). -/
def fieldData (cw : U64) : U32 := cw.extractLsb' 32 32

/-- CW[63:4], which INIT, FINALIZE and CLR_ERR need to be zero (R85). -/
def fieldAboveOp (cw : U64) : BitVec 60 := cw.extractLsb' 4 60

/-- A command with no operand: `i` when CW[63:4] is zero, else illegal (R83, R85). -/
def decodeBare (i : Instr) (cw : U64) : Except Illegal Instr :=
  if fieldAboveOp cw = 0 then .ok i else .error .nonzeroReserved

/-- APPEND, for which CW[31:7] must be zero; every LEN decodes (R83). -/
def decodeAppend (cw : U64) : Except Illegal Instr :=
  if fieldRsv cw = 0 then .ok (.append (fieldLen cw) (fieldData cw)) else .error .nonzeroReserved

/-- Decoding a command word (R82, R83). -/
def decodeCommand (cw : U64) : Except Illegal Instr :=
  if fieldOp cw = 0x2 then decodeAppend cw
  else if fieldOp cw = 0x1 then decodeBare .init cw
  else if fieldOp cw = 0x3 then decodeBare .finalize cw
  else if fieldOp cw = 0x4 then decodeBare .clrErr cw
  else .error .reservedOpcode

/-- Decoding what arrives on either port (R83, R87). -/
def decode : PortWord → Except Illegal Instr
  | .command cw => decodeCommand cw
  | .readAddress a => .ok (.read a)

/-- A command word from its fields: DATA in bits 63:32, RSV = 0 in 31:7, LEN in 6:4, OP in 3:0 (R81). -/
def commandWord (data : U32) (len : BitVec 3) (op : BitVec 4) : U64 := data ++ 0#25 ++ len ++ op

/-- The bits of an instruction (R81, R82, R87, R89). -/
def encode : Instr → PortWord
  | .init => .command (commandWord 0 0 0x1)
  | .append len data => .command (commandWord data len 0x2)
  | .finalize => .command (commandWord 0 0 0x3)
  | .clrErr => .command (commandWord 0 0 0x4)
  | .read a => .readAddress a

/-- The port word of a table row: the one row of 8 bits is READ's address (format RD, R87), the rows of 64 bits are
command words (format CMD, R80). DESIGN CHOICE, safe, notes/assumptions/14.md. -/
def tableWord (nbits w : Nat) : PortWord :=
  if nbits ≤ 8 then .readAddress (BitVec.ofNat 8 w) else .command (BitVec.ofNat 64 w)

/-- The instruction the decoder reads from a word of spec/opcode_table.json. -/
def decodeTableWord (nbits w : Nat) : Option Instr := (decode (tableWord nbits w)).toOption

end Sys2Proof
end

