-- ==== Sys2Proof/Machine/Port.lean ====
section
/-! DEFINITION. The ports: which agent moves next (10_state.md R20, 70_reset_and_hazards.md R234 to R236), and how an
instruction is placed there. -/

namespace Sys2Proof.Machine

/-- What the next step does, and the events left after it. A read and the reset input act at once. A word offered to a
busy core is held while the core completes (R234); a pause, or the end of the script, lets a busy core complete (R235).
While reset is asserted no command is accepted (R230): a word offered then is held until reset is released.
DESIGN CHOICE, safe, notes/assumptions/1.md and 3.md. -/
def schedule (s : State) : Action × List Event :=
  match s.script with
  | .assertReset :: rest => (.assertReset, rest)
  | .releaseReset :: rest => (.releaseReset, rest)
  | .read a :: rest => (.run (.readAddress a), rest)
  | .offer cw :: rest =>
    if s.resetLine then (.releaseReset, .offer cw :: rest)
    else if s.busy then (.run (.command s.pending), .offer cw :: rest)
    else (.accept cw, rest)
  | .pause :: rest =>
    if s.resetLine then (.idle, rest)
    else if s.busy then (.run (.command s.pending), rest)
    else (.idle, rest)
  | [] =>
    if s.resetLine then (.idle, [])
    else if s.busy then (.run (.command s.pending), [])
    else (.idle, [])

/-- The state with the events that are left. -/
def withScript (rest : List Event) (s : State) : State := { s with script := rest }

/-- An instruction placed where the next step takes its instruction: a command word is the accepted one, and the host
pauses; a read address is the host's next event. notes/assumptions/2.md. -/
def place : PortWord → State → State
  | .command cw, s => { accept cw s with resetLine := false, script := .pause :: s.script }
  | .readAddress a, s => { s with script := .read a :: s.script }

end Sys2Proof.Machine
end

