-- ==== Sys2Proof/Machine/Step.lean ====
section
/-! DEFINITION. One step of the machine. -/

namespace Sys2Proof.Machine

/-- What an action does to the state. A word that decodes runs its instruction; a command word that does not raises
ERR_OPC (60_exceptions.md R212). -/
def perform (a : Action) (s : State) : Host.Outcome State Fault Refusal :=
  match a with
  | .run w =>
    match decode w with
    | .ok i => exec i s
    | .error why => .next (completeIllegal why s)
  | .accept cw => .next (accept cw s)
  | .assertReset => .next (assertReset s)
  | .releaseReset => .next (releaseReset s)
  | .idle => .next s

/-- One step: the scheduled action, on the state with the events that are left. -/
def step (s : State) : Host.Outcome State Fault Refusal :=
  perform (schedule s).1 (withScript (schedule s).2 s)

/-- The state in which the very next step runs the table word `w`. -/
def State.withFetchWord (s : State) (nbits w : Nat) : State := place (tableWord nbits w) s

end Sys2Proof.Machine
end

