-- ==== Sys2Proof/Machine/Pseudo.lean ====
section
/-! DEFINITION. The pseudo-commands of 30_encoding.md R90 to R92, as the events the host makes of them. -/

namespace Sys2Proof.Machine

/-- The host issues an instruction through the port it is spelled for. -/
def issue (i : Instr) : Event :=
  match encode i with
  | .command cw => .offer cw
  | .readAddress a => .read a

/-- Four bytes a command, then one command for the one to three that are left, unused lanes 0 (R90). -/
def appendCommands : List U8 → List Instr
  | b0 :: b1 :: b2 :: b3 :: rest => .append 4 (b0 ++ b1 ++ b2 ++ b3) :: appendCommands rest
  | [b0, b1, b2] => [.append 3 (b0 ++ b1 ++ b2 ++ 0#8)]
  | [b0, b1] => [.append 2 (b0 ++ b1 ++ 0#16)]
  | [b0] => [.append 1 (b0 ++ 0#24)]
  | [] => []

/-- `UPDATE m`; an update of zero bytes is `APPEND 0` (R90). -/
def updateCommands (m : List U8) : List Instr := if m = [] then [.append 0 0] else appendCommands m

/-- `WAITIDLE` that sees the core busy `n` times: reads of STATUS, of which the last is made with BUSY = 0 (R92). -/
def waitIdleEvents (n : Nat) : List Event := List.replicate n (.read 0x00) ++ [.pause, .read 0x00]

/-- The reads of DIGEST0 to DIGEST7. -/
def digestReads : List Event :=
  [.read 0x08, .read 0x09, .read 0x0A, .read 0x0B, .read 0x0C, .read 0x0D, .read 0x0E, .read 0x0F]

/-- The commands of `HASH m`: INIT, UPDATE m, FINALIZE (R91). -/
def hashCommands (m : List U8) : List Instr := .init :: updateCommands m ++ [.finalize]

/-- `HASH m`: its commands, then the digest reads "once BUSY = 0" (R91). -/
def hashEvents (m : List U8) : List Event := (hashCommands m).map issue ++ .pause :: digestReads

end Sys2Proof.Machine
end

