-- ==== Sys2Proof/Safety.lean ====
section
/-! DEFINITION. What counts as a good state and a good run, in the terms the claims use, and the message-level meaning of
a hashing operation that the machine is compared with. Nothing of the machine imports this file. -/

namespace Sys2Proof.Machine

/-- The invariant of 10_state.md R37 (`BUF_LEN < 64` and `PHASE ∈ {0, 1, 2}` hold by the types), and what holds while
reset is asserted (70_reset_and_hazards.md R230). -/
structure Invariant (s : State) : Prop where
  fresh : s.phase = .fresh → s.bufLen = 0#6 ∧ s.blocks = 0#64 ∧ s.h = iv
  finalized : s.phase = .finalized → s.bufLen = 0#6
  held : s.resetLine = true →
    s.busy = false ∧ s.phase = .fresh ∧ s.errOpc = false ∧ s.errArg = false ∧ s.errState = false

/-- Two states that differ at most in what 10_state.md R41 says no observation depends on: `BUF[BUF_LEN..63]`, and
PENDING while idle. -/
structure Indistinguishable (s t : State) : Prop where
  h : s.h = t.h
  bufLen : s.bufLen = t.bufLen
  blocks : s.blocks = t.blocks
  phase : s.phase = t.phase
  errOpc : s.errOpc = t.errOpc
  errArg : s.errArg = t.errArg
  errState : s.errState = t.errState
  busy : s.busy = t.busy
  resetLine : s.resetLine = t.resetLine
  script : s.script = t.script
  received : s.received = t.received
  draws : s.draws = t.draws
  pendingBytes : ∀ j : Fin 64, j.val < s.bufLen.toNat → s.buf[j] = t.buf[j]
  pending : s.busy = true → s.pending = t.pending

/-- `k` steps, stopping at the first fault or refusal (`Host.Core.run` of this machine). -/
def runFor : Nat → State → Host.Outcome State Fault Refusal
  | 0, s => .next s
  | k + 1, s =>
    match step s with
    | .next t => runFor k t
    | .fault r => .fault r
    | .refused r => .refused r

/-- The instructions of a list take effect one after another (20_memory.md R65). -/
def execAll : List Instr → State → Host.Outcome State Fault Refusal
  | [], s => .next s
  | i :: rest, s =>
    match exec i s with
    | .next t => execAll rest t
    | .fault r => .fault r
    | .refused r => .refused r

/-- The command words of a list complete one after another, a word that spells no command among them (R65, R86). -/
def completeAll : List U64 → State → Host.Outcome State Fault Refusal
  | [], s => .next s
  | cw :: rest, s =>
    match perform (.run (.command cw)) s with
    | .next t => completeAll rest t
    | .fault r => .fault r
    | .refused r => .refused r

/-- An APPEND whose byte count is legal. -/
def isGoodAppend : Instr → Bool
  | .init => false
  | .append len _ => len.toNat ≤ 4
  | .finalize => false
  | .clrErr => false
  | .read _ => false

/-- What may stand between the INIT and the FINALIZE of one hashing operation. -/
def isWithinMessage : Instr → Bool
  | .init => false
  | .append _ _ => true
  | .finalize => false
  | .clrErr => true
  | .read _ => true

/-- A command, not a read. -/
def isCommand : Instr → Bool
  | .init => true
  | .append _ _ => true
  | .finalize => true
  | .clrErr => true
  | .read _ => false

/-- The message bytes an instruction carries: those of an APPEND that raises no ERR_ARG (00_scope.md R15 "Message"). -/
def messageBytes : Instr → List U8
  | .init => []
  | .append len data => if len.toNat ≤ 4 then appendBytes len data else []
  | .finalize => []
  | .clrErr => []
  | .read _ => []

/-- The message a command sequence carries: the concatenation of its bytes in order (20_memory.md R65). -/
def messageOf (is : List Instr) : List U8 := is.flatMap messageBytes

/-- The 64-byte block number `i` of a byte string. -/
def blockAt (m : List U8) (i : Nat) : Vector U8 64 := Vector.ofFn fun j => m.getD (64 * i + j.val) 0

/-- The first `n` 64-byte blocks of `m` compressed in order, starting from `IV` (41_accumulator.md R129). -/
def compressBlocks (m : List U8) (n : Nat) : Vector U32 8 :=
  (List.range n).foldl (fun h i => compress h (blockAt m i)) iv

/-- The core has taken in exactly the message `m` since INIT or reset (41_accumulator.md R129). -/
structure Accumulates (m : List U8) (s : State) : Prop where
  blocks : s.blocks = BitVec.ofNat 64 (m.length / 64)
  bufLen : s.bufLen.toNat = m.length % 64
  pendingBytes : ∀ j : Fin 64, j.val < m.length % 64 → s.buf[j] = m.getD (64 * (m.length / 64) + j.val) 0
  h : s.h = compressBlocks m (m.length / 64)

/-- What padding adds to a message of `k` bytes: 0x80, the zeros that leave 8 bytes to a multiple of 64, and the bit
length as 64 big-endian bits (00_scope.md R15 "Padding"; 43_finalize.md R172, R173). -/
def padding (k : Nat) : List U8 :=
  0x80 :: List.replicate ((119 - k % 64) % 64) 0x00 ++ lengthBytes (BitVec.ofNat 64 (8 * k))

/-- The padded message. -/
def padded (m : List U8) : List U8 := m ++ padding m.length

/-- The digest words of a message: the padded message's blocks compressed in order from `IV` (43_finalize.md R177). -/
def sha256 (m : List U8) : Vector U32 8 := compressBlocks (padded m) ((padded m).length / 64)

/-- One round of an implementation that keeps a 16-word window `W[t..t+15]` of the schedule (42_compression.md R149). -/
def rollingRound (st : List U32 × Working) (k : U32) : List U32 × Working :=
  let w := st.1
  let next := smallSigma1 (w.getD 14 0) + w.getD 9 0 + smallSigma0 (w.getD 1 0) + w.getD 0 0
  (w.drop 1 ++ [next], round k (w.getD 0 0) st.2)

/-- COMPRESS by a datapath that computes the schedule on the fly (42_compression.md R149). -/
def compressRolling (h : Vector U32 8) (block : Vector U8 64) : Vector U32 8 :=
  mix h (roundConstants.foldl rollingRound (blockWords block, initWorking h)).2

end Sys2Proof.Machine
end

