-- ==== Sys2Proof/Certificates/Slice0/Obligations.lean ====
section
/-! DEFINITION. The statements for the provers, from the numbered rules of spec/. A free value is never named: a statement
that meets one says only that there is a word, so it holds for every value. -/

open Sys2Proof Sys2Proof.Machine

/-! ## Reset -/

/-- 10_state.md R38, the elements it gives a value. (BUF and PENDING are "unspecified" there; nothing is said of them.) -/
def Obligations.ResetLeavesFreshHasher : Prop :=
  State.reset.h =
    #v[0x6a09e667, 0xbb67ae85, 0x3c6ef372, 0xa54ff53a, 0x510e527f, 0x9b05688c, 0x1f83d9ab, 0x5be0cd19] ∧
  State.reset.bufLen = 0 ∧ State.reset.blocks = 0 ∧ State.reset.phase = .fresh ∧
  State.reset.errOpc = false ∧ State.reset.errArg = false ∧ State.reset.errState = false ∧ State.reset.busy = false

/-- 70_reset_and_hazards.md R230 and R231: whatever the core was doing, asserting reset gives every element its reset
value (BUF and PENDING become unspecified; nothing is said of them), and the reset line is then asserted. -/
def Obligations.AssertingResetRestoresEveryElement : Prop :=
  ∀ (s : State) (rest : List Event), s.script = .assertReset :: rest →
    ∃ t, step s = .next t ∧ t.h = State.reset.h ∧ t.bufLen = 0 ∧ t.blocks = 0 ∧ t.phase = .fresh ∧
      t.errOpc = false ∧ t.errArg = false ∧ t.errState = false ∧ t.busy = false ∧
      t.resetLine = true ∧ t.script = rest ∧ t.received = s.received

/-- 70_reset_and_hazards.md R230: "While reset is asserted the core accepts no command": no step then makes the core busy
or changes an element, a read returns some word, and an offered word is not taken off the host. -/
def Obligations.NothingMovesWhileResetIsAsserted : Prop :=
  ∀ s t : State, Invariant s → s.resetLine = true → step s = .next t →
    t.busy = false ∧ t.phase = .fresh ∧ t.h = iv ∧ t.bufLen = 0 ∧ t.blocks = 0 ∧
    t.errOpc = false ∧ t.errArg = false ∧ t.errState = false ∧
    (∀ cw rest, s.script = .offer cw :: rest → t.script = s.script ∧ t.resetLine = false)

/-! ## Encoding -/

/-- The ten examples of 30_encoding.md R93, and a read address (R87). -/
def Obligations.SpecExampleWordsDecode : Prop :=
  decode (.command 0x0000000000000001) = .ok .init ∧
  decode (.command 0x0000000000000002) = .ok (.append 0 0) ∧
  decode (.command 0x6F00000000000012) = .ok (.append 1 0x6F000000) ∧
  decode (.command 0x6162630000000032) = .ok (.append 3 0x61626300) ∧
  decode (.command 0x48656C6C00000042) = .ok (.append 4 0x48656C6C) ∧
  decode (.command 0x0000000000000052) = .ok (.append 5 0) ∧
  decode (.command 0x0000000000000003) = .ok .finalize ∧
  decode (.command 0x0000000000000004) = .ok .clrErr ∧
  decode (.command 0x0000000000000000) = .error .reservedOpcode ∧
  decode (.command 0x0000000000000013) = .error .nonzeroReserved ∧
  decode (.readAddress 0x0F) = .ok (.read 0x0F)

/-- Decoding gives back every encoded instruction, whatever its operands (the ill-formed byte counts 5 to 7 included). -/
def Obligations.DecodeGivesBackEveryEncodedInstruction : Prop :=
  ∀ i : Instr, decode (encode i) = .ok i

/-- Every word that decodes is the encoding of what it decodes to: no instruction has a second spelling. -/
def Obligations.EveryDecodedWordIsAnEncoding : Prop :=
  ∀ (w : PortWord) (i : Instr), decode w = .ok i → encode i = w

/-- 30_encoding.md R83: the decoder agrees with the match and mask list, takes APPEND's operands from CW[6:4] and
CW[63:32], and the four patterns are disjoint (a word decodes to one instruction only). -/
def Obligations.DecoderAgreesWithMatchAndMask : Prop :=
  ∀ cw : U64,
    (decodeCommand cw = .ok .init ↔ cw &&& 0xFFFFFFFFFFFFFFFF = 0x0000000000000001) ∧
    (decodeCommand cw = .ok (.append (cw.extractLsb' 4 3) (cw.extractLsb' 32 32)) ↔
      cw &&& 0x00000000FFFFFF8F = 0x0000000000000002) ∧
    (decodeCommand cw = .ok .finalize ↔ cw &&& 0xFFFFFFFFFFFFFFFF = 0x0000000000000003) ∧
    (decodeCommand cw = .ok .clrErr ↔ cw &&& 0xFFFFFFFFFFFFFFFF = 0x0000000000000004) ∧
    ((∃ why, decodeCommand cw = .error why) ↔ commandWordWellFormed cw = false) ∧
    (matchRows.filter (·.accepts cw)).length ≤ 1

/-! ## The step and the handshake -/

/-- A step runs the decoded instruction: an accepted command word at its completion, a read when the host makes it. -/
def Obligations.StepRunsTheDecodedInstruction : Prop :=
  (∀ (s : State) (i : Instr), s.busy = true → s.resetLine = false → decode (.command s.pending) = .ok i →
    (∀ rest, s.script = .pause :: rest → step s = exec i { s with script := rest }) ∧
    (s.script = [] → step s = exec i s) ∧
    (∀ cw rest, s.script = .offer cw :: rest → step s = exec i s)) ∧
  (∀ (s : State) (a : U8) (rest : List Event), s.script = .read a :: rest →
    step s = exec (.read a) { s with script := rest })

/-- A placed table word is what the very next step runs, on a state with the same architectural contents (`BUSY` and
`PENDING` are those of the accepted word). The model's own convention, notes/assumptions/2.md. -/
def Obligations.PlacedWordIsRunNext : Prop :=
  ∀ (s : State) (nbits w : Nat) (i : Instr), decodeTableWord nbits w = some i →
    ∃ u, step (s.withFetchWord nbits w) = exec i u ∧ u.h = s.h ∧ u.buf = s.buf ∧ u.bufLen = s.bufLen ∧
      u.blocks = s.blocks ∧ u.phase = s.phase ∧ u.errOpc = s.errOpc ∧ u.errArg = s.errArg ∧
      u.errState = s.errState ∧ u.script = s.script ∧ u.received = s.received ∧ u.draws = s.draws

/-- 70_reset_and_hazards.md R234: an idle core takes the offered word into PENDING and becomes busy; a busy core leaves
the word with the host, completes, and takes it in the step after. -/
def Obligations.HandshakeAcceptsOnlyWhenIdle : Prop :=
  ∀ (s : State) (cw : U64) (rest : List Event), s.script = .offer cw :: rest → s.resetLine = false →
    (s.busy = false → step s = .next { s with pending := cw, busy := true, script := rest }) ∧
    (s.busy = true → ∃ t, step s = .next t ∧ t.busy = false ∧ t.script = s.script ∧
      step t = .next { t with pending := cw, busy := true, script := rest })

/-- 60_exceptions.md R215, 70_reset_and_hazards.md R235: no state stops the machine. -/
def Obligations.EveryStepAnswersANextState : Prop :=
  ∀ s : State, ∃ t, step s = .next t

/-- 70_reset_and_hazards.md R235: "Completion always happens": within one step more than the script has events, whatever
the script is, the core is idle. -/
def Obligations.CompletionAlwaysHappens : Prop :=
  ∀ s : State, Invariant s → ∃ k t, k ≤ s.script.length + 1 ∧ runFor k s = .next t ∧ t.busy = false

/-- 10_state.md R40, row BUSY: set by command acceptance only, cleared by command completion and reset only. -/
def Obligations.BusyChangesOnlyAtAcceptanceCompletionAndReset : Prop :=
  ∀ s t : State, step s = .next t →
    (s.busy = false → t.busy = true → ∃ cw, (schedule s).1 = .accept cw ∧ t.pending = cw) ∧
    (s.busy = true → t.busy = false →
      (schedule s).1 = .run (.command s.pending) ∨ (schedule s).1 = .assertReset)

/-- 30_encoding.md R86: a word with a reserved OP or a nonzero must-be-zero field sets ERR_OPC at its completion and
changes nothing else (the completion is a step of every kind that `schedule` makes one of). -/
def Obligations.IllegalWordSetsErrOpcAlone : Prop :=
  ∀ s : State, (schedule s).1 = .run (.command s.pending) →
    ((s.pending.extractLsb' 0 4 ∉ [0x1, 0x2, 0x3, 0x4]) ∨
     (s.pending.extractLsb' 0 4 ∈ [0x1, 0x3, 0x4] ∧ s.pending.extractLsb' 4 60 ≠ 0) ∨
     (s.pending.extractLsb' 0 4 = 0x2 ∧ s.pending.extractLsb' 7 25 ≠ 0)) →
    step s = .next { s with errOpc := true, busy := false, script := (schedule s).2 }

/-- 20_memory.md R65: command words offered one after another take effect one at a time, in that order, each on what the
one before it left, and the core is idle at the end. -/
def Obligations.CommandsTakeEffectInOrder : Prop :=
  ∀ (s : State) (cws : List U64) (rest : List Event),
    s.busy = false → s.resetLine = false → s.script = cws.map .offer ++ .pause :: rest →
    ∃ k u t, completeAll cws s = .next u ∧ runFor k s = .next t ∧
      t = { u with script := rest, pending := t.pending } ∧ t.busy = false

/-! ## The bitwise function unit -/

/-- 40_bitops.md R100: bit `i` of a rotation to the right is bit `i + n` of the operand, modulo 32. -/
def Obligations.RotateRightMovesBits : Prop :=
  ∀ (x : U32) (n i : Nat), 1 ≤ n → n ≤ 31 → i < 32 → (rotr x n).getLsbD i = x.getLsbD ((i + n) % 32)

/-- 40_bitops.md R101 and R102: the shift is division by 2^n, the addition is modulo 2^32, and a sum of several terms is
reduced modulo 2^32, whatever their grouping and order. -/
def Obligations.ShiftDividesAndAdditionWraps : Prop :=
  (∀ (x : U32) (n : Nat), (shr x n).toNat = x.toNat / 2 ^ n) ∧
  (∀ x y : U32, (add32 x y).toNat = (x.toNat + y.toNat) % 2 ^ 32) ∧
  (∀ x y z : U32, add32 (add32 x y) z = add32 x (add32 y z)) ∧
  (∀ xs : List U32, (xs.foldl add32 0).toNat = (xs.map BitVec.toNat).sum % 2 ^ 32)

/-- 40_bitops.md R103 and R104: Ch selects bit by bit, Maj is the majority bit by bit. -/
def Obligations.ChooseSelectsAndMajorityVotes : Prop :=
  ∀ (x y z : U32) (i : Nat), i < 32 →
    (ch x y z).getLsbD i = (if x.getLsbD i then y.getLsbD i else z.getLsbD i) ∧
    ((maj x y z).getLsbD i = true ↔ 2 ≤ [x.getLsbD i, y.getLsbD i, z.getLsbD i].count true)

/-- 40_bitops.md R105 to R108, bit by bit: the rotation amounts of the four sigma functions, and the zero-filling shift
of the small ones. -/
def Obligations.SigmaFunctionsBitByBit : Prop :=
  ∀ (x : U32) (i : Nat), i < 32 →
    (bigSigma0 x).getLsbD i = (x.getLsbD ((i + 2) % 32) ^^ x.getLsbD ((i + 13) % 32) ^^ x.getLsbD ((i + 22) % 32)) ∧
    (bigSigma1 x).getLsbD i = (x.getLsbD ((i + 6) % 32) ^^ x.getLsbD ((i + 11) % 32) ^^ x.getLsbD ((i + 25) % 32)) ∧
    (smallSigma0 x).getLsbD i =
      (x.getLsbD ((i + 7) % 32) ^^ x.getLsbD ((i + 18) % 32) ^^ (if i + 3 < 32 then x.getLsbD (i + 3) else false)) ∧
    (smallSigma1 x).getLsbD i =
      (x.getLsbD ((i + 17) % 32) ^^ x.getLsbD ((i + 19) % 32) ^^ (if i + 10 < 32 then x.getLsbD (i + 10) else false))

/-! ## The compression core -/

/-- 42_compression.md R143: a block is 16 big-endian words. -/
def Obligations.BlockIsSixteenBigEndianWords : Prop :=
  ∀ block : Vector U8 64, (blockWords block).length = 16 ∧
    ∀ i : Fin 16, (blockWords block)[i.val]? =
      some (block[4 * i.val] ++ block[4 * i.val + 1] ++ block[4 * i.val + 2] ++ block[4 * i.val + 3])

/-- 42_compression.md R142: the schedule has 64 words, the first 16 are the block's, and each later one is
`σ1(W[t-2]) + W[t-7] + σ0(W[t-15]) + W[t-16]`. -/
def Obligations.ScheduleFollowsTheRecurrence : Prop :=
  ∀ m : List U32, m.length = 16 →
    (expand m).length = 64 ∧
    (∀ t < 16, (expand m).getD t 0 = m.getD t 0) ∧
    (∀ t, 16 ≤ t → t < 64 → (expand m).getD t 0 =
      smallSigma1 ((expand m).getD (t - 2) 0) + (expand m).getD (t - 7) 0 +
        smallSigma0 ((expand m).getD (t - 15) 0) + (expand m).getD (t - 16) 0)

/-- 42_compression.md R144 to R148: COMPRESS is 64 rounds in order of `t`, round `t` with `K[t]` and `W[t]`, from working
variables that are `H`, mixed back into `H` by addition modulo 2^32. -/
def Obligations.CompressRunsSixtyFourRoundsAndMixes : Prop :=
  ∀ (h : Vector U32 8) (block : Vector U8 64),
    ∃ v : Working,
      v = (List.range 64).foldl
        (fun (v : Working) t =>
          let t1 := v.h + bigSigma1 v.e + ch v.e v.f v.g + roundConstants.getD t 0 +
            (expand (blockWords block)).getD t 0
          let t2 := bigSigma0 v.a + maj v.a v.b v.c
          ⟨t1 + t2, v.a, v.b, v.c, v.d + t1, v.e, v.f, v.g⟩)
        ⟨h[0], h[1], h[2], h[3], h[4], h[5], h[6], h[7]⟩ ∧
      compress h block = #v[h[0] + v.a, h[1] + v.b, h[2] + v.c, h[3] + v.d, h[4] + v.e, h[5] + v.f, h[6] + v.g, h[7] + v.h]

/-- 42_compression.md R149: a datapath that computes the schedule on the fly in a 16-word window produces COMPRESS's
result. -/
def Obligations.RollingScheduleComputesCompress : Prop :=
  ∀ (h : Vector U32 8) (block : Vector U8 64), compressRolling h block = compress h block

/-! ## APPEND -/

/-- 41_accumulator.md R125 and R120: an APPEND of at most four bytes outside FINALIZED completes; the fill count and the
block counter it leaves, and `H`, which one compression of the filled block changes exactly when the bytes reach index
63. -/
def Obligations.AppendCountsBytesAndCompressesAFullBlock : Prop :=
  ∀ (s : State) (len : BitVec 3) (data : U32), len.toNat ≤ 4 → s.phase ≠ .finalized →
    ∃ t, exec (.append len data) s = .next t ∧ t.phase = .accumulating ∧ t.busy = false ∧
      t.bufLen.toNat = (s.bufLen.toNat + len.toNat) % 64 ∧
      t.blocks = s.blocks + BitVec.ofNat 64 ((s.bufLen.toNat + len.toNat) / 64) ∧
      t.h = if s.bufLen.toNat + len.toNat < 64 then s.h
        else compress s.h (Vector.ofFn fun j =>
          if j.val < s.bufLen.toNat then s.buf[j] else (byteLanes data).getD (j.val - s.bufLen.toNat) 0)

/-- 41_accumulator.md R121, with the frame: byte lane `i` goes to index `(BUF_LEN + i) mod 64`, `DATA[31:24]` first;
every other byte of BUF, and every register that APPEND is not said to write, is unchanged. That bytes at BUF_LEN and above,
and PENDING, are kept is the model's choice (notes/assumptions/8.md): no rule writes them, and nothing reads them. -/
def Obligations.AppendStoresItsLanesAndNothingElse : Prop :=
  ∀ (s : State) (len : BitVec 3) (data : U32), len.toNat ≤ 4 → s.phase ≠ .finalized →
    ∃ t, exec (.append len data) s = .next t ∧
      (∀ i (lane : i < len.toNat),
        t.buf[(s.bufLen.toNat + i) % 64]'(by omega) = data.extractLsb' (24 - 8 * i) 8) ∧
      (∀ j : Fin 64, (∀ i < len.toNat, (s.bufLen.toNat + i) % 64 ≠ j.val) → t.buf[j] = s.buf[j]) ∧
      t.errOpc = s.errOpc ∧ t.errArg = s.errArg ∧ t.errState = s.errState ∧ t.pending = s.pending ∧
      t.resetLine = s.resetLine ∧ t.script = s.script ∧ t.received = s.received ∧ t.draws = s.draws

/-- 41_accumulator.md R126: `APPEND 0` moves PHASE to ACCUMULATING and completes; in FINALIZED it raises ERR_STATE. (PENDING
is kept by the model's choice, notes/assumptions/8.md.) -/
def Obligations.ZeroLengthAppendOnlyMovesPhase : Prop :=
  ∀ (s : State) (data : U32),
    (s.phase ≠ .finalized → exec (.append 0 data) s = .next { s with phase := .accumulating, busy := false }) ∧
    (s.phase = .finalized → exec (.append 0 data) s = .next { s with errState := true, busy := false })

/-- 41_accumulator.md R123 and 60_exceptions.md R213: LEN 5 to 7 raises ERR_ARG in every phase, FINALIZED included, and
changes nothing else. -/
def Obligations.AppendOfMoreThanFourRaisesErrArg : Prop :=
  ∀ (s : State) (len : BitVec 3) (data : U32), len = 5 ∨ len = 6 ∨ len = 7 →
    exec (.append len data) s = .next { s with errArg := true, busy := false }

/-- 41_accumulator.md R122 and 43_finalize.md R171: in FINALIZED a legal APPEND, and FINALIZE, raise ERR_STATE and change
nothing else. -/
def Obligations.FinalizedRefusesAppendAndFinalize : Prop :=
  ∀ s : State, s.phase = .finalized →
    (∀ (len : BitVec 3) (data : U32), len.toNat ≤ 4 →
      exec (.append len data) s = .next { s with errState := true, busy := false }) ∧
    exec .finalize s = .next { s with errState := true, busy := false }

/-! ## FINALIZE -/

/-- 43_finalize.md R172: the length is `{BLOCKS[54:0], BUF_LEN[5:0], 0b000}`, the formula's value modulo 2^64. -/
def Obligations.MessageLengthIsBlocksFillAndThreeZeros : Prop :=
  ∀ (blocks : U64) (bufLen : BitVec 6),
    messageLength blocks bufLen = (blocks.setWidth 55 ++ bufLen ++ 0#3 : BitVec 64) ∧
    (messageLength blocks bufLen).toNat = (blocks.toNat * 64 * 8 + bufLen.toNat * 8) % 2 ^ 64

/-- 43_finalize.md R175, with the frame (BUF is unspecified afterwards; nothing is said of it). R175 says nothing of
PENDING: that it is kept is the model's choice (notes/assumptions/8.md). -/
def Obligations.FinalizeEndState : Prop :=
  ∀ s : State, s.phase ≠ .finalized →
    ∃ t, exec .finalize s = .next t ∧ t.phase = .finalized ∧ t.bufLen = 0 ∧ t.busy = false ∧
      t.blocks = s.blocks + (if s.bufLen.toNat ≤ 55 then 1 else 2) ∧
      t.errOpc = s.errOpc ∧ t.errArg = s.errArg ∧ t.errState = s.errState ∧ t.pending = s.pending ∧
      t.resetLine = s.resetLine ∧ t.script = s.script ∧ t.received = s.received

/-- 43_finalize.md R173 and R174: the one or two blocks FINALIZE compresses, byte by byte: the pending bytes, 0x80, zeros,
and the 64-bit length big-endian in bytes 56 to 63 of the last block. -/
def Obligations.FinalizeCompressesThePaddedBlocks : Prop :=
  ∀ s : State, s.phase ≠ .finalized →
    ∃ t, exec .finalize s = .next t ∧
      (s.bufLen.toNat ≤ 55 → t.h = compress s.h (Vector.ofFn fun j =>
        if j.val < s.bufLen.toNat then s.buf[j]
        else if j.val = s.bufLen.toNat then 0x80
        else if j.val < 56 then 0x00
        else (messageLength s.blocks s.bufLen).extractLsb' (8 * (63 - j.val)) 8)) ∧
      (56 ≤ s.bufLen.toNat → t.h = compress
        (compress s.h (Vector.ofFn fun j =>
          if j.val < s.bufLen.toNat then s.buf[j] else if j.val = s.bufLen.toNat then 0x80 else 0x00))
        (Vector.ofFn fun j =>
          if j.val < 56 then 0x00 else (messageLength s.blocks s.bufLen).extractLsb' (8 * (63 - j.val)) 8))

/-- 43_finalize.md R176: the digest is 32 bytes, byte `k` of word `i` being `H[i][31-8k : 24-8k]`. -/
def Obligations.DigestBytesAreBigEndianWords : Prop :=
  ∀ h : Vector U32 8, (digestBytes h).length = 32 ∧
    ∀ (i : Fin 8) (k : Nat), k < 4 → (digestBytes h)[4 * i.val + k]? = some (h[i].extractLsb' (24 - 8 * k) 8)

/-! ## INIT, CLR_ERR, READ -/

/-- 44_control.md R190: INIT completes in every state, with exactly this effect. ("`BUF` contents are not cleared"; that
they and PENDING are kept is the model's choice, notes/assumptions/8.md.) -/
def Obligations.InitStartsAFreshHasher : Prop :=
  ∀ s : State, exec .init s = .next { s with
    h := #v[0x6a09e667, 0xbb67ae85, 0x3c6ef372, 0xa54ff53a, 0x510e527f, 0x9b05688c, 0x1f83d9ab, 0x5be0cd19],
    bufLen := 0, blocks := 0, phase := .fresh, errOpc := false, errArg := false, errState := false, busy := false }

/-- 44_control.md R191: CLR_ERR completes in every state, clears the three error bits and changes nothing else. (PENDING
is kept by the model's choice, notes/assumptions/8.md.) -/
def Obligations.ClrErrClearsOnlyTheErrorBits : Prop :=
  ∀ s : State, exec .clrErr s =
    .next { s with errOpc := false, errArg := false, errState := false, busy := false }

/-- 44_control.md R194 with the register map of 10_state.md R30 and R32 to R35: what a read of an idle core returns, for
every address, and that it changes nothing (`received` is the host's record of the words returned). -/
def Obligations.IdleReadReturnsTheMappedRegister : Prop :=
  ∀ (s : State) (a : U8), s.busy = false → s.resetLine = false →
    ∃ w : U32, exec (.read a) s = .next { s with received := s.received ++ [w] } ∧
      (a = 0x00 → w = statusWord s) ∧
      (a = 0x01 → w = s.blocks.extractLsb' 0 32) ∧
      (a = 0x02 → w = s.blocks.extractLsb' 32 32) ∧
      (a = 0x03 → w = 0x00002040) ∧
      (∀ i : Fin 8, a.toNat = 0x08 + i.val → w = if s.phase = .finalized then s.h[i] else 0) ∧
      (0x04 ≤ a.toNat ∧ a.toNat ≤ 0x07 ∨ 0x10 ≤ a.toNat → w = 0)

/-- 10_state.md R31: every field of STATUS, the reserved ones zero. -/
def Obligations.StatusFieldsStandWhereTheMapSays : Prop :=
  ∀ s : State,
    (statusWord s).extractLsb' 0 2 = (match s.phase with | .fresh => 0 | .accumulating => 1 | .finalized => 2) ∧
    (statusWord s).getLsbD 2 = s.busy ∧
    (statusWord s).extractLsb' 3 5 = 0 ∧
    (statusWord s).getLsbD 8 = s.errOpc ∧
    (statusWord s).getLsbD 9 = s.errArg ∧
    (statusWord s).getLsbD 10 = s.errState ∧
    (statusWord s).extractLsb' 11 5 = 0 ∧
    (statusWord s).extractLsb' 16 6 = s.bufLen ∧
    (statusWord s).extractLsb' 22 10 = 0

/-- 70_reset_and_hazards.md R236 and R230, 30_encoding.md R87: a read always completes and changes no state, busy or not,
reset or not; while the core is busy a read of STATUS shows BUSY = 1. The word is otherwise a free value, of which
nothing is said (`draws` counts it). -/
def Obligations.ReadAlwaysCompletesAndChangesNoState : Prop :=
  ∀ (s : State) (a : U8), ∃ (w : U32) (n : Nat),
    exec (.read a) s = .next { s with received := s.received ++ [w], draws := n } ∧
    (s.busy = true → s.resetLine = false → a = 0x00 → w.getLsbD 2 = true)

/-- 70_reset_and_hazards.md R237 and 20_memory.md R67: reads made one after another while the core is idle, with no
command between them, all return words of the one state. -/
def Obligations.ReadsWithoutCommandsAreConsistent : Prop :=
  ∀ (s : State) (as : List U8) (rest : List Event), s.busy = false → s.resetLine = false →
    s.script = as.map .read ++ rest →
    runFor as.length s =
      .next { s with script := rest, received := s.received ++ as.map fun a => registerWord a s }

/-! ## Errors -/

/-- 60_exceptions.md R211 and R213: an instruction that sets an error bit which was clear sets that one bit, clears BUSY,
and keeps every other element. -/
def Obligations.AnErrorSetsOneBitAndKeepsTheRest : Prop :=
  ∀ (i : Instr) (s t : State), exec i s = .next t →
    (s.errOpc = false → t.errOpc = true → False) ∧
    (s.errArg = false → t.errArg = true → t = { s with errArg := true, busy := false }) ∧
    (s.errState = false → t.errState = true → t = { s with errState := true, busy := false })

/-- 60_exceptions.md R214 and 10_state.md R27: a set error bit stays set through every step, but for the completion of an
INIT or a CLR_ERR, and reset. -/
def Obligations.ErrorBitsAreSticky : Prop :=
  ∀ s t : State, step s = .next t → (schedule s).1 ≠ .assertReset →
    ((schedule s).1 = .run (.command s.pending) →
      s.pending ≠ 0x0000000000000001 ∧ s.pending ≠ 0x0000000000000004) →
    (s.errOpc = true → t.errOpc = true) ∧ (s.errArg = true → t.errArg = true) ∧
    (s.errState = true → t.errState = true)

/-! ## Whole-machine rules -/

/-- 10_state.md R26 and 43_finalize.md R176: no transition leaves FINALIZED except INIT and reset, and through every other
step the digest stays as it is. -/
def Obligations.FinalizedIsLeftOnlyByInitAndReset : Prop :=
  ∀ s t : State, step s = .next t → s.phase = .finalized →
    (schedule s).1 = .assertReset ∨
    ((schedule s).1 = .run (.command s.pending) ∧ s.pending = 0x0000000000000001) ∨
    (t.phase = .finalized ∧ t.h = s.h ∧ t.bufLen = s.bufLen ∧ t.blocks = s.blocks)

/-- 10_state.md R26: where each instruction that runs without an error takes PHASE. -/
def Obligations.PhaseFollowsTheLifecycle : Prop :=
  ∀ (i : Instr) (s t : State), exec i s = .next t →
    t.phase = match i with
      | .init => .fresh
      | .append len _ =>
        if len.toNat ≤ 4 then (if s.phase = .finalized then .finalized else .accumulating) else s.phase
      | .finalize => .finalized
      | .clrErr => s.phase
      | .read _ => s.phase

/-- 10_state.md R37 holds of the state after reset. -/
def Obligations.InvariantHoldsAtReset : Prop := Invariant State.reset

/-- 10_state.md R37: every step keeps the invariant, from every state that has it. -/
def Obligations.EveryStepKeepsTheInvariant : Prop :=
  ∀ s t : State, Invariant s → step s = .next t → Invariant t

/-- 10_state.md R41: BUF at BUF_LEN and above, and PENDING while idle, influence nothing: two states that differ there
alone step to states that differ there alone, with the same words returned to the host. So no claim about anything else
rests on the model's values for them (notes/assumptions/7.md and 8.md). -/
def Obligations.UnobservableStateInfluencesNothing : Prop :=
  ∀ s t : State, Indistinguishable s t →
    ∃ s' t', step s = .next s' ∧ step t = .next t' ∧ Indistinguishable s' t'

/-! ## Messages -/

/-- 30_encoding.md R90: UPDATE m expands to legal APPENDs, at least one, that carry exactly the bytes of m, and every
APPEND but the last carries four. -/
def Obligations.UpdateExpandsToTheBytesOfTheMessage : Prop :=
  ∀ m : List U8, messageOf (updateCommands m) = m ∧ updateCommands m ≠ [] ∧
    (∀ i ∈ updateCommands m, isGoodAppend i = true) ∧
    (∀ i ∈ (updateCommands m).dropLast, (messageBytes i).length = 4)

/-- 41_accumulator.md R127: two sequences of error-free APPENDs that carry the same bytes, from the same state, leave the
same `H`, `BUF[0..BUF_LEN-1]`, `BUF_LEN` and `BLOCKS`, and FINALIZE then leaves the same digest. -/
def Obligations.FragmentationDoesNotMatter : Prop :=
  ∀ (s : State) (as bs : List Instr), s.phase ≠ .finalized →
    (∀ i ∈ as, isGoodAppend i = true) → (∀ i ∈ bs, isGoodAppend i = true) → messageOf as = messageOf bs →
    ∃ t u, execAll as s = .next t ∧ execAll bs s = .next u ∧
      t.h = u.h ∧ t.bufLen = u.bufLen ∧ t.blocks = u.blocks ∧
      (∀ j : Fin 64, j.val < t.bufLen.toNat → t.buf[j] = u.buf[j]) ∧
      ∃ t' u', exec .finalize t = .next t' ∧ exec .finalize u = .next u' ∧ t'.h = u'.h

/-- 41_accumulator.md R129: after INIT, or reset, and error-free APPENDs that carry the message m, `BLOCKS`, `BUF_LEN`,
the pending bytes and `H` are those of m. -/
def Obligations.TotalsOverAMessage : Prop :=
  ∀ is : List Instr, (∀ i ∈ is, isGoodAppend i = true) →
    (∀ s : State, ∃ t, execAll (.init :: is) s = .next t ∧ Accumulates (messageOf is) t) ∧
    (∃ t, execAll is State.reset = .next t ∧ Accumulates (messageOf is) t)

/-- 43_finalize.md R177 and R175: INIT, then any APPENDs (those that raise an error among them), CLR_ERRs and reads, then
FINALIZE: the digest is the SHA-256 of the bytes of the error-free APPENDs, and BLOCKS is the number of blocks of the
padded message. For messages below 2^61 bytes; beyond, R172 says the result is no digest of the standard. -/
def Obligations.DigestIsSha256OfTheMessage : Prop :=
  ∀ (s : State) (is : List Instr), (∀ i ∈ is, isWithinMessage i = true) → (messageOf is).length < 2 ^ 61 →
    ∃ t, execAll (.init :: is ++ [.finalize]) s = .next t ∧ t.phase = .finalized ∧
      t.h = sha256 (messageOf is) ∧ t.blocks = BitVec.ofNat 64 (((messageOf is).length + 8) / 64 + 1)

/-- 44_control.md R193 and 30_encoding.md R91: the host runs `HASH m` on an idle core, whatever was hashed before; the
eight words its reads return are the digest of m. -/
def Obligations.HashReadsBackTheDigest : Prop :=
  ∀ (s : State) (m : List U8) (rest : List Event), s.busy = false → s.resetLine = false →
    s.script = hashEvents m ++ rest → m.length < 2 ^ 61 →
    ∃ k t, runFor k s = .next t ∧ t.script = rest ∧ t.busy = false ∧
      t.received = s.received ++ (sha256 m).toList ∧
      t.phase = .finalized ∧ t.errOpc = false ∧ t.errArg = false ∧ t.errState = false

/-- 44_control.md R196: after INIT nothing that came before is left: from any two states, the same commands after an INIT
leave the same hashing state and error bits. -/
def Obligations.InitMakesOperationsIndependent : Prop :=
  ∀ (s t : State) (is : List Instr), (∀ i ∈ is, isCommand i = true) →
    ∃ s' t', execAll (.init :: is) s = .next s' ∧ execAll (.init :: is) t = .next t' ∧
      s'.h = t'.h ∧ s'.bufLen = t'.bufLen ∧ s'.blocks = t'.blocks ∧ s'.phase = t'.phase ∧
      s'.errOpc = t'.errOpc ∧ s'.errArg = t'.errArg ∧ s'.errState = t'.errState ∧
      (∀ j : Fin 64, j.val < s'.bufLen.toNat → s'.buf[j] = t'.buf[j])
end

