-- ==== Sys2Proof/Laws/State.lean ====
section
/-! SUPPORT. One lemma per field per update of State, so that no proof unfolds a record update. -/

namespace Sys2Proof.Machine

variable (s : State)

/-! `complete`: completion: BUSY is cleared (R235). -/

@[simp] theorem complete_h : (complete s).h = s.h := rfl
@[simp] theorem complete_buf : (complete s).buf = s.buf := rfl
@[simp] theorem complete_bufLen : (complete s).bufLen = s.bufLen := rfl
@[simp] theorem complete_blocks : (complete s).blocks = s.blocks := rfl
@[simp] theorem complete_phase : (complete s).phase = s.phase := rfl
@[simp] theorem complete_errOpc : (complete s).errOpc = s.errOpc := rfl
@[simp] theorem complete_errArg : (complete s).errArg = s.errArg := rfl
@[simp] theorem complete_errState : (complete s).errState = s.errState := rfl
@[simp] theorem complete_busy : (complete s).busy = false := rfl
@[simp] theorem complete_pending : (complete s).pending = s.pending := rfl
@[simp] theorem complete_resetLine : (complete s).resetLine = s.resetLine := rfl
@[simp] theorem complete_script : (complete s).script = s.script := rfl
@[simp] theorem complete_received : (complete s).received = s.received := rfl
@[simp] theorem complete_draws : (complete s).draws = s.draws := rfl

/-! `clearErrors`: the three error bits are cleared (R27). -/

@[simp] theorem clearErrors_h : (clearErrors s).h = s.h := rfl
@[simp] theorem clearErrors_buf : (clearErrors s).buf = s.buf := rfl
@[simp] theorem clearErrors_bufLen : (clearErrors s).bufLen = s.bufLen := rfl
@[simp] theorem clearErrors_blocks : (clearErrors s).blocks = s.blocks := rfl
@[simp] theorem clearErrors_phase : (clearErrors s).phase = s.phase := rfl
@[simp] theorem clearErrors_errOpc : (clearErrors s).errOpc = false := rfl
@[simp] theorem clearErrors_errArg : (clearErrors s).errArg = false := rfl
@[simp] theorem clearErrors_errState : (clearErrors s).errState = false := rfl
@[simp] theorem clearErrors_busy : (clearErrors s).busy = s.busy := rfl
@[simp] theorem clearErrors_pending : (clearErrors s).pending = s.pending := rfl
@[simp] theorem clearErrors_resetLine : (clearErrors s).resetLine = s.resetLine := rfl
@[simp] theorem clearErrors_script : (clearErrors s).script = s.script := rfl
@[simp] theorem clearErrors_received : (clearErrors s).received = s.received := rfl
@[simp] theorem clearErrors_draws : (clearErrors s).draws = s.draws := rfl

/-! `startFresh`: the fresh Hasher (R190). -/

@[simp] theorem startFresh_h : (startFresh s).h = iv := rfl
@[simp] theorem startFresh_buf : (startFresh s).buf = s.buf := rfl
@[simp] theorem startFresh_bufLen : (startFresh s).bufLen = 0#6 := rfl
@[simp] theorem startFresh_blocks : (startFresh s).blocks = 0#64 := rfl
@[simp] theorem startFresh_phase : (startFresh s).phase = .fresh := rfl
@[simp] theorem startFresh_errOpc : (startFresh s).errOpc = s.errOpc := rfl
@[simp] theorem startFresh_errArg : (startFresh s).errArg = s.errArg := rfl
@[simp] theorem startFresh_errState : (startFresh s).errState = s.errState := rfl
@[simp] theorem startFresh_busy : (startFresh s).busy = s.busy := rfl
@[simp] theorem startFresh_pending : (startFresh s).pending = s.pending := rfl
@[simp] theorem startFresh_resetLine : (startFresh s).resetLine = s.resetLine := rfl
@[simp] theorem startFresh_script : (startFresh s).script = s.script := rfl
@[simp] theorem startFresh_received : (startFresh s).received = s.received := rfl
@[simp] theorem startFresh_draws : (startFresh s).draws = s.draws := rfl

/-! `blockReady`: block-ready (R124). -/

@[simp] theorem blockReady_h : (blockReady s).h = compress s.h s.buf := rfl
@[simp] theorem blockReady_buf : (blockReady s).buf = s.buf := rfl
@[simp] theorem blockReady_bufLen : (blockReady s).bufLen = 0#6 := rfl
@[simp] theorem blockReady_blocks : (blockReady s).blocks = s.blocks + 1#64 := rfl
@[simp] theorem blockReady_phase : (blockReady s).phase = s.phase := rfl
@[simp] theorem blockReady_errOpc : (blockReady s).errOpc = s.errOpc := rfl
@[simp] theorem blockReady_errArg : (blockReady s).errArg = s.errArg := rfl
@[simp] theorem blockReady_errState : (blockReady s).errState = s.errState := rfl
@[simp] theorem blockReady_busy : (blockReady s).busy = s.busy := rfl
@[simp] theorem blockReady_pending : (blockReady s).pending = s.pending := rfl
@[simp] theorem blockReady_resetLine : (blockReady s).resetLine = s.resetLine := rfl
@[simp] theorem blockReady_script : (blockReady s).script = s.script := rfl
@[simp] theorem blockReady_received : (blockReady s).received = s.received := rfl
@[simp] theorem blockReady_draws : (blockReady s).draws = s.draws := rfl

/-! `countDraw`: a free value is counted. -/

@[simp] theorem countDraw_h : (countDraw s).h = s.h := rfl
@[simp] theorem countDraw_buf : (countDraw s).buf = s.buf := rfl
@[simp] theorem countDraw_bufLen : (countDraw s).bufLen = s.bufLen := rfl
@[simp] theorem countDraw_blocks : (countDraw s).blocks = s.blocks := rfl
@[simp] theorem countDraw_phase : (countDraw s).phase = s.phase := rfl
@[simp] theorem countDraw_errOpc : (countDraw s).errOpc = s.errOpc := rfl
@[simp] theorem countDraw_errArg : (countDraw s).errArg = s.errArg := rfl
@[simp] theorem countDraw_errState : (countDraw s).errState = s.errState := rfl
@[simp] theorem countDraw_busy : (countDraw s).busy = s.busy := rfl
@[simp] theorem countDraw_pending : (countDraw s).pending = s.pending := rfl
@[simp] theorem countDraw_resetLine : (countDraw s).resetLine = s.resetLine := rfl
@[simp] theorem countDraw_script : (countDraw s).script = s.script := rfl
@[simp] theorem countDraw_received : (countDraw s).received = s.received := rfl
@[simp] theorem countDraw_draws : (countDraw s).draws = s.draws + 1 := rfl

/-! `forgetBuf`: BUF becomes unspecified (R175). -/

@[simp] theorem forgetBuf_h : (forgetBuf s).h = s.h := rfl
@[simp] theorem forgetBuf_buf : (forgetBuf s).buf = Config.freeBuf s.draws := rfl
@[simp] theorem forgetBuf_bufLen : (forgetBuf s).bufLen = s.bufLen := rfl
@[simp] theorem forgetBuf_blocks : (forgetBuf s).blocks = s.blocks := rfl
@[simp] theorem forgetBuf_phase : (forgetBuf s).phase = s.phase := rfl
@[simp] theorem forgetBuf_errOpc : (forgetBuf s).errOpc = s.errOpc := rfl
@[simp] theorem forgetBuf_errArg : (forgetBuf s).errArg = s.errArg := rfl
@[simp] theorem forgetBuf_errState : (forgetBuf s).errState = s.errState := rfl
@[simp] theorem forgetBuf_busy : (forgetBuf s).busy = s.busy := rfl
@[simp] theorem forgetBuf_pending : (forgetBuf s).pending = s.pending := rfl
@[simp] theorem forgetBuf_resetLine : (forgetBuf s).resetLine = s.resetLine := rfl
@[simp] theorem forgetBuf_script : (forgetBuf s).script = s.script := rfl
@[simp] theorem forgetBuf_received : (forgetBuf s).received = s.received := rfl
@[simp] theorem forgetBuf_draws : (forgetBuf s).draws = s.draws := rfl

/-! `deliver`: a read returns its word (R194). -/

@[simp] theorem deliver_h (w : U32) : (deliver w s).h = s.h := rfl
@[simp] theorem deliver_buf (w : U32) : (deliver w s).buf = s.buf := rfl
@[simp] theorem deliver_bufLen (w : U32) : (deliver w s).bufLen = s.bufLen := rfl
@[simp] theorem deliver_blocks (w : U32) : (deliver w s).blocks = s.blocks := rfl
@[simp] theorem deliver_phase (w : U32) : (deliver w s).phase = s.phase := rfl
@[simp] theorem deliver_errOpc (w : U32) : (deliver w s).errOpc = s.errOpc := rfl
@[simp] theorem deliver_errArg (w : U32) : (deliver w s).errArg = s.errArg := rfl
@[simp] theorem deliver_errState (w : U32) : (deliver w s).errState = s.errState := rfl
@[simp] theorem deliver_busy (w : U32) : (deliver w s).busy = s.busy := rfl
@[simp] theorem deliver_pending (w : U32) : (deliver w s).pending = s.pending := rfl
@[simp] theorem deliver_resetLine (w : U32) : (deliver w s).resetLine = s.resetLine := rfl
@[simp] theorem deliver_script (w : U32) : (deliver w s).script = s.script := rfl
@[simp] theorem deliver_received (w : U32) : (deliver w s).received = s.received ++ [w] := rfl
@[simp] theorem deliver_draws (w : U32) : (deliver w s).draws = s.draws := rfl

/-! `accept`: acceptance (R234). -/

@[simp] theorem accept_h (cw : U64) : (accept cw s).h = s.h := rfl
@[simp] theorem accept_buf (cw : U64) : (accept cw s).buf = s.buf := rfl
@[simp] theorem accept_bufLen (cw : U64) : (accept cw s).bufLen = s.bufLen := rfl
@[simp] theorem accept_blocks (cw : U64) : (accept cw s).blocks = s.blocks := rfl
@[simp] theorem accept_phase (cw : U64) : (accept cw s).phase = s.phase := rfl
@[simp] theorem accept_errOpc (cw : U64) : (accept cw s).errOpc = s.errOpc := rfl
@[simp] theorem accept_errArg (cw : U64) : (accept cw s).errArg = s.errArg := rfl
@[simp] theorem accept_errState (cw : U64) : (accept cw s).errState = s.errState := rfl
@[simp] theorem accept_busy (cw : U64) : (accept cw s).busy = true := rfl
@[simp] theorem accept_pending (cw : U64) : (accept cw s).pending = cw := rfl
@[simp] theorem accept_resetLine (cw : U64) : (accept cw s).resetLine = s.resetLine := rfl
@[simp] theorem accept_script (cw : U64) : (accept cw s).script = s.script := rfl
@[simp] theorem accept_received (cw : U64) : (accept cw s).received = s.received := rfl
@[simp] theorem accept_draws (cw : U64) : (accept cw s).draws = s.draws := rfl

/-! `releaseReset`: reset is released. -/

@[simp] theorem releaseReset_h : (releaseReset s).h = s.h := rfl
@[simp] theorem releaseReset_buf : (releaseReset s).buf = s.buf := rfl
@[simp] theorem releaseReset_bufLen : (releaseReset s).bufLen = s.bufLen := rfl
@[simp] theorem releaseReset_blocks : (releaseReset s).blocks = s.blocks := rfl
@[simp] theorem releaseReset_phase : (releaseReset s).phase = s.phase := rfl
@[simp] theorem releaseReset_errOpc : (releaseReset s).errOpc = s.errOpc := rfl
@[simp] theorem releaseReset_errArg : (releaseReset s).errArg = s.errArg := rfl
@[simp] theorem releaseReset_errState : (releaseReset s).errState = s.errState := rfl
@[simp] theorem releaseReset_busy : (releaseReset s).busy = s.busy := rfl
@[simp] theorem releaseReset_pending : (releaseReset s).pending = s.pending := rfl
@[simp] theorem releaseReset_resetLine : (releaseReset s).resetLine = false := rfl
@[simp] theorem releaseReset_script : (releaseReset s).script = s.script := rfl
@[simp] theorem releaseReset_received : (releaseReset s).received = s.received := rfl
@[simp] theorem releaseReset_draws : (releaseReset s).draws = s.draws := rfl

/-! `withScript`: the events that are left. -/

@[simp] theorem withScript_h (rest : List Event) : (withScript rest s).h = s.h := rfl
@[simp] theorem withScript_buf (rest : List Event) : (withScript rest s).buf = s.buf := rfl
@[simp] theorem withScript_bufLen (rest : List Event) : (withScript rest s).bufLen = s.bufLen := rfl
@[simp] theorem withScript_blocks (rest : List Event) : (withScript rest s).blocks = s.blocks := rfl
@[simp] theorem withScript_phase (rest : List Event) : (withScript rest s).phase = s.phase := rfl
@[simp] theorem withScript_errOpc (rest : List Event) : (withScript rest s).errOpc = s.errOpc := rfl
@[simp] theorem withScript_errArg (rest : List Event) : (withScript rest s).errArg = s.errArg := rfl
@[simp] theorem withScript_errState (rest : List Event) : (withScript rest s).errState = s.errState := rfl
@[simp] theorem withScript_busy (rest : List Event) : (withScript rest s).busy = s.busy := rfl
@[simp] theorem withScript_pending (rest : List Event) : (withScript rest s).pending = s.pending := rfl
@[simp] theorem withScript_resetLine (rest : List Event) : (withScript rest s).resetLine = s.resetLine := rfl
@[simp] theorem withScript_script (rest : List Event) : (withScript rest s).script = rest := rfl
@[simp] theorem withScript_received (rest : List Event) : (withScript rest s).received = s.received := rfl
@[simp] theorem withScript_draws (rest : List Event) : (withScript rest s).draws = s.draws := rfl

/-! `assertReset`: the reset event (R230). -/

@[simp] theorem assertReset_h : (assertReset s).h = iv := rfl
@[simp] theorem assertReset_buf : (assertReset s).buf = Config.freeBuf s.draws := rfl
@[simp] theorem assertReset_bufLen : (assertReset s).bufLen = 0#6 := rfl
@[simp] theorem assertReset_blocks : (assertReset s).blocks = 0#64 := rfl
@[simp] theorem assertReset_phase : (assertReset s).phase = .fresh := rfl
@[simp] theorem assertReset_errOpc : (assertReset s).errOpc = false := rfl
@[simp] theorem assertReset_errArg : (assertReset s).errArg = false := rfl
@[simp] theorem assertReset_errState : (assertReset s).errState = false := rfl
@[simp] theorem assertReset_busy : (assertReset s).busy = false := rfl
@[simp] theorem assertReset_pending : (assertReset s).pending = Config.freePending s.draws := rfl
@[simp] theorem assertReset_resetLine : (assertReset s).resetLine = true := rfl
@[simp] theorem assertReset_script : (assertReset s).script = s.script := rfl
@[simp] theorem assertReset_received : (assertReset s).received = s.received := rfl
@[simp] theorem assertReset_draws : (assertReset s).draws = s.draws + 1 := rfl

/-! `raise`: one error bit is set and BUSY is cleared (R211). -/

@[simp] theorem raise_h (e : ErrorClass) : (raise e s).h = s.h := by cases e <;> rfl
@[simp] theorem raise_buf (e : ErrorClass) : (raise e s).buf = s.buf := by cases e <;> rfl
@[simp] theorem raise_bufLen (e : ErrorClass) : (raise e s).bufLen = s.bufLen := by cases e <;> rfl
@[simp] theorem raise_blocks (e : ErrorClass) : (raise e s).blocks = s.blocks := by cases e <;> rfl
@[simp] theorem raise_phase (e : ErrorClass) : (raise e s).phase = s.phase := by cases e <;> rfl
@[simp] theorem raise_opc_errOpc : (raise .opc s).errOpc = true := rfl
@[simp] theorem raise_arg_errOpc : (raise .arg s).errOpc = s.errOpc := rfl
@[simp] theorem raise_state_errOpc : (raise .state s).errOpc = s.errOpc := rfl
@[simp] theorem raise_opc_errArg : (raise .opc s).errArg = s.errArg := rfl
@[simp] theorem raise_arg_errArg : (raise .arg s).errArg = true := rfl
@[simp] theorem raise_state_errArg : (raise .state s).errArg = s.errArg := rfl
@[simp] theorem raise_opc_errState : (raise .opc s).errState = s.errState := rfl
@[simp] theorem raise_arg_errState : (raise .arg s).errState = s.errState := rfl
@[simp] theorem raise_state_errState : (raise .state s).errState = true := rfl
@[simp] theorem raise_busy (e : ErrorClass) : (raise e s).busy = false := by cases e <;> rfl
@[simp] theorem raise_pending (e : ErrorClass) : (raise e s).pending = s.pending := by cases e <;> rfl
@[simp] theorem raise_resetLine (e : ErrorClass) : (raise e s).resetLine = s.resetLine := by cases e <;> rfl
@[simp] theorem raise_script (e : ErrorClass) : (raise e s).script = s.script := by cases e <;> rfl
@[simp] theorem raise_received (e : ErrorClass) : (raise e s).received = s.received := by cases e <;> rfl
@[simp] theorem raise_draws (e : ErrorClass) : (raise e s).draws = s.draws := by cases e <;> rfl

end Sys2Proof.Machine
end

