-- ==== Sys2Proof/Laws/Buffer.lean ====
section
/-! SUPPORT. The block buffer: reading after writing (20_memory.md R60), and what one push and a list of pushes do
(41_accumulator.md R124). -/

namespace Sys2Proof.Machine

/-! ## The 64 bytes -/

@[simp] theorem bufRead_bufWrite_same (j : BitVec 6) (b : U8) (buf : Vector U8 64) :
    bufRead j (bufWrite j b buf) = b := by
  simp [bufRead, bufWrite]

theorem bufRead_bufWrite_of_ne (i j : BitVec 6) (b : U8) (buf : Vector U8 64) (ne : i ≠ j) :
    bufRead i (bufWrite j b buf) = bufRead i buf := by
  have : j.toNat ≠ i.toNat := fun e => ne (BitVec.eq_of_toNat_eq e.symm)
  simp [bufRead, bufWrite, Vector.getElem_set_ne, this]

theorem getElem_bufWrite (j : BitVec 6) (b : U8) (buf : Vector U8 64) (i : Nat) (lt : i < 64) :
    (bufWrite j b buf)[i] = if j.toNat = i then b else buf[i] := by
  simp [bufWrite, Vector.getElem_set]

theorem bufRead_eq_getElem (j : BitVec 6) (buf : Vector U8 64) : bufRead j buf = buf[j.toNat]'j.isLt := rfl

/-! ## One push -/

/-- Everything a push can do: the byte is stored, and either block-ready is raised or the fill count moves on. -/
theorem push_cases (b : U8) (s : State) :
    (s.bufLen = 63#6 ∧ push b s = blockReady { s with buf := bufWrite s.bufLen b s.buf }) ∨
    (s.bufLen ≠ 63#6 ∧ push b s = { s with buf := bufWrite s.bufLen b s.buf, bufLen := s.bufLen + 1#6 }) := by
  by_cases full : s.bufLen = 63#6
  · exact .inl ⟨full, by simp [push, full]⟩
  · exact .inr ⟨full, by simp [push, full]⟩

@[simp] theorem push_buf (b : U8) (s : State) : (push b s).buf = bufWrite s.bufLen b s.buf := by
  rcases push_cases b s with ⟨-, e⟩ | ⟨-, e⟩ <;> simp [e]

/-- The fill count counts modulo 64: 63 + 1 is 0 in its six bits. -/
@[simp] theorem push_bufLen (b : U8) (s : State) : (push b s).bufLen = s.bufLen + 1#6 := by
  rcases push_cases b s with ⟨full, e⟩ | ⟨-, e⟩
  · rw [e, full]; rfl
  · rw [e]

theorem push_blocks (b : U8) (s : State) :
    (push b s).blocks = if s.bufLen = 63#6 then s.blocks + 1#64 else s.blocks := by
  rcases push_cases b s with ⟨full, e⟩ | ⟨open_, e⟩
  · simp [e, full]
  · simp [e, open_]

theorem push_h (b : U8) (s : State) :
    (push b s).h = if s.bufLen = 63#6 then compress s.h (bufWrite s.bufLen b s.buf) else s.h := by
  rcases push_cases b s with ⟨full, e⟩ | ⟨open_, e⟩
  · simp [e, full]
  · simp [e, open_]

@[simp] theorem push_phase (b : U8) (s : State) : (push b s).phase = s.phase := by
  rcases push_cases b s with ⟨-, e⟩ | ⟨-, e⟩ <;> simp [e]

@[simp] theorem push_errOpc (b : U8) (s : State) : (push b s).errOpc = s.errOpc := by
  rcases push_cases b s with ⟨-, e⟩ | ⟨-, e⟩ <;> simp [e]

@[simp] theorem push_errArg (b : U8) (s : State) : (push b s).errArg = s.errArg := by
  rcases push_cases b s with ⟨-, e⟩ | ⟨-, e⟩ <;> simp [e]

@[simp] theorem push_errState (b : U8) (s : State) : (push b s).errState = s.errState := by
  rcases push_cases b s with ⟨-, e⟩ | ⟨-, e⟩ <;> simp [e]

@[simp] theorem push_busy (b : U8) (s : State) : (push b s).busy = s.busy := by
  rcases push_cases b s with ⟨-, e⟩ | ⟨-, e⟩ <;> simp [e]

@[simp] theorem push_pending (b : U8) (s : State) : (push b s).pending = s.pending := by
  rcases push_cases b s with ⟨-, e⟩ | ⟨-, e⟩ <;> simp [e]

@[simp] theorem push_resetLine (b : U8) (s : State) : (push b s).resetLine = s.resetLine := by
  rcases push_cases b s with ⟨-, e⟩ | ⟨-, e⟩ <;> simp [e]

@[simp] theorem push_script (b : U8) (s : State) : (push b s).script = s.script := by
  rcases push_cases b s with ⟨-, e⟩ | ⟨-, e⟩ <;> simp [e]

@[simp] theorem push_received (b : U8) (s : State) : (push b s).received = s.received := by
  rcases push_cases b s with ⟨-, e⟩ | ⟨-, e⟩ <;> simp [e]

@[simp] theorem push_draws (b : U8) (s : State) : (push b s).draws = s.draws := by
  rcases push_cases b s with ⟨-, e⟩ | ⟨-, e⟩ <;> simp [e]

/-! ## A list of pushes -/

@[simp] theorem pushAll_nil (s : State) : pushAll [] s = s := rfl

@[simp] theorem pushAll_cons (b : U8) (bs : List U8) (s : State) : pushAll (b :: bs) s = pushAll bs (push b s) := rfl

/-- Pushing a concatenation is pushing its parts one after the other. -/
@[simp] theorem pushAll_append (as bs : List U8) (s : State) : pushAll (as ++ bs) s = pushAll bs (pushAll as s) := by
  simp [pushAll]

@[simp] theorem pushAll_bufLen (bs : List U8) (s : State) :
    (pushAll bs s).bufLen = s.bufLen + BitVec.ofNat 6 bs.length := by
  induction bs generalizing s with
  | nil => simp
  | cons b bs ih =>
    rw [pushAll_cons, ih, push_bufLen, List.length_cons]
    apply BitVec.eq_of_toNat_eq
    simp only [BitVec.toNat_add, BitVec.toNat_ofNat]
    omega

theorem pushAll_bufLen_toNat (bs : List U8) (s : State) :
    (pushAll bs s).bufLen.toNat = (s.bufLen.toNat + bs.length) % 64 := by
  simp [BitVec.toNat_add]

@[simp] theorem pushAll_phase (bs : List U8) (s : State) : (pushAll bs s).phase = s.phase := by
  induction bs generalizing s with
  | nil => rfl
  | cons b bs ih => rw [pushAll_cons, ih, push_phase]

@[simp] theorem pushAll_errOpc (bs : List U8) (s : State) : (pushAll bs s).errOpc = s.errOpc := by
  induction bs generalizing s with
  | nil => rfl
  | cons b bs ih => rw [pushAll_cons, ih, push_errOpc]

@[simp] theorem pushAll_errArg (bs : List U8) (s : State) : (pushAll bs s).errArg = s.errArg := by
  induction bs generalizing s with
  | nil => rfl
  | cons b bs ih => rw [pushAll_cons, ih, push_errArg]

@[simp] theorem pushAll_errState (bs : List U8) (s : State) : (pushAll bs s).errState = s.errState := by
  induction bs generalizing s with
  | nil => rfl
  | cons b bs ih => rw [pushAll_cons, ih, push_errState]

@[simp] theorem pushAll_busy (bs : List U8) (s : State) : (pushAll bs s).busy = s.busy := by
  induction bs generalizing s with
  | nil => rfl
  | cons b bs ih => rw [pushAll_cons, ih, push_busy]

@[simp] theorem pushAll_pending (bs : List U8) (s : State) : (pushAll bs s).pending = s.pending := by
  induction bs generalizing s with
  | nil => rfl
  | cons b bs ih => rw [pushAll_cons, ih, push_pending]

@[simp] theorem pushAll_resetLine (bs : List U8) (s : State) : (pushAll bs s).resetLine = s.resetLine := by
  induction bs generalizing s with
  | nil => rfl
  | cons b bs ih => rw [pushAll_cons, ih, push_resetLine]

@[simp] theorem pushAll_script (bs : List U8) (s : State) : (pushAll bs s).script = s.script := by
  induction bs generalizing s with
  | nil => rfl
  | cons b bs ih => rw [pushAll_cons, ih, push_script]

@[simp] theorem pushAll_received (bs : List U8) (s : State) : (pushAll bs s).received = s.received := by
  induction bs generalizing s with
  | nil => rfl
  | cons b bs ih => rw [pushAll_cons, ih, push_received]

@[simp] theorem pushAll_draws (bs : List U8) (s : State) : (pushAll bs s).draws = s.draws := by
  induction bs generalizing s with
  | nil => rfl
  | cons b bs ih => rw [pushAll_cons, ih, push_draws]

/-- Where the bytes land, while they do not run past their own beginning: byte `i` of the list at index
`(BUF_LEN + i) mod 64` (R121), every other byte as it was. -/
theorem pushAll_buf (bs : List U8) (s : State) (short : bs.length ≤ 64) (j : Nat) (lt : j < 64) :
    (pushAll bs s).buf[j] =
      if (j + 64 - s.bufLen.toNat) % 64 < bs.length then bs.getD ((j + 64 - s.bufLen.toNat) % 64) 0 else s.buf[j] := by
  have bound := s.bufLen.isLt
  induction bs generalizing s with
  | nil => simp
  | cons b bs ih =>
    have shorter : bs.length ≤ 64 := by simp at short; omega
    have next : (push b s).bufLen.toNat = (s.bufLen.toNat + 1) % 64 := by simp [BitVec.toNat_add]
    rw [pushAll_cons, ih (push b s) shorter (push b s).bufLen.isLt, next, push_buf, getElem_bufWrite]
    simp only [List.length_cons] at short ⊢
    by_cases here : s.bufLen.toNat = j
    · have e : (j + 64 - (s.bufLen.toNat + 1) % 64) % 64 = 63 := by omega
      have z : (j + 64 - s.bufLen.toNat) % 64 = 0 := by omega
      rw [e, z, if_neg (by omega), if_pos here, if_pos (by omega)]
      rfl
    · have e : (j + 64 - s.bufLen.toNat) % 64 = (j + 64 - (s.bufLen.toNat + 1) % 64) % 64 + 1 := by omega
      rw [e, if_neg here, List.getD_cons_succ]
      simp

/-- `H` and `BLOCKS` do not move while the block does not fill. -/
theorem pushAll_of_fits (bs : List U8) (s : State) (fits : s.bufLen.toNat + bs.length < 64) :
    (pushAll bs s).h = s.h ∧ (pushAll bs s).blocks = s.blocks := by
  induction bs generalizing s with
  | nil => simp
  | cons b bs ih =>
    simp only [List.length_cons] at fits
    have open_ : s.bufLen ≠ 63#6 := by intro e; simp [e] at fits; omega
    have next : (push b s).bufLen.toNat = s.bufLen.toNat + 1 := by
      simp [BitVec.toNat_add]; omega
    obtain ⟨eh, eb⟩ := ih (push b s) (by omega)
    rw [pushAll_cons, eh, eb, push_h, push_blocks, if_neg open_, if_neg open_]
    exact ⟨rfl, rfl⟩

/-- What up to 64 pushes do to `H` and `BLOCKS`: nothing while the block does not fill, one compression of the filled
block when it does. -/
theorem pushAll_h_blocks (bs : List U8) (s : State) (short : bs.length ≤ 64) :
    (pushAll bs s).h = (if s.bufLen.toNat + bs.length < 64 then s.h
      else compress s.h (Vector.ofFn fun j =>
        if j.val < s.bufLen.toNat then s.buf[j] else bs.getD (j.val - s.bufLen.toNat) 0)) ∧
    (pushAll bs s).blocks = s.blocks + BitVec.ofNat 64 ((s.bufLen.toNat + bs.length) / 64) := by
  have bound := s.bufLen.isLt
  by_cases fits : s.bufLen.toNat + bs.length < 64
  · obtain ⟨sameH, sameBlocks⟩ := pushAll_of_fits bs s fits
    rw [if_pos fits, sameH, sameBlocks, Nat.div_eq_of_lt fits]
    exact ⟨rfl, by simp⟩
  · rw [if_neg fits]
    obtain ⟨k, hk⟩ : ∃ k, k = 63 - s.bufLen.toNat := ⟨_, rfl⟩
    obtain ⟨first, hfirst⟩ : ∃ first, first = bs.take k := ⟨_, rfl⟩
    obtain ⟨later, hlater⟩ : ∃ later, later = bs.drop (k + 1) := ⟨_, rfl⟩
    obtain ⟨x, hx⟩ : ∃ x, x = bs.getD k 0 := ⟨_, rfl⟩
    have parts : bs = first ++ x :: later := by
      conv_lhs => rw [← List.take_append_drop k bs]
      rw [List.drop_eq_getElem_cons (by omega), hfirst, hlater, hx]
      simp [List.getD, show k < bs.length by omega]
    have firstLength : first.length = k := by rw [hfirst]; simp; omega
    have full : (pushAll first s).bufLen = 63#6 := by
      apply BitVec.eq_of_toNat_eq
      rw [pushAll_bufLen_toNat, firstLength]
      simp only [BitVec.toNat_ofNat]
      omega
    have emptied : (push x (pushAll first s)).bufLen.toNat = 0 := by rw [push_bufLen, full]; rfl
    have laterLength : later.length < 64 := by rw [hlater]; simp; omega
    obtain ⟨firstH, firstBlocks⟩ := pushAll_of_fits first s (by omega)
    obtain ⟨laterH, laterBlocks⟩ := pushAll_of_fits later (push x (pushAll first s)) (by omega)
    have whole : pushAll bs s = pushAll later (push x (pushAll first s)) := by rw [parts]; simp
    rw [whole, laterH, laterBlocks, push_h, push_blocks, if_pos full, if_pos full, firstH, firstBlocks]
    constructor
    · refine congrArg (compress s.h) ?_
      apply Vector.ext
      intro j lt
      rw [getElem_bufWrite, full, pushAll_buf _ _ (by omega) j lt, firstLength]
      simp only [Vector.getElem_ofFn]
      by_cases old : j < s.bufLen.toNat
      · rw [if_neg (by simp; omega), if_neg (by omega), if_pos old]; rfl
      · rw [if_neg old]
        by_cases last : j = 63
        · rw [if_pos (by simp [last]), hx, hk, last]
        · rw [if_neg (by simp; omega), if_pos (by omega),
            show (j + 64 - s.bufLen.toNat) % 64 = j - s.bufLen.toNat by omega, hfirst]
          simp [List.getD, show j - s.bufLen.toNat < k by omega]
    · rw [show (s.bufLen.toNat + bs.length) / 64 = 1 by omega]

end Sys2Proof.Machine
end

