-- ==== Sys2Proof/Laws/Encoding.lean ====
section
/-! SUPPORT. The fields of a command word that the encoder built (30_encoding.md R81). -/

namespace Sys2Proof

@[simp] theorem fieldOp_commandWord (data : U32) (len : BitVec 3) (op : BitVec 4) :
    fieldOp (commandWord data len op) = op := by
  apply BitVec.eq_of_getLsbD_eq
  intro i lt
  simp only [fieldOp, commandWord, BitVec.getLsbD_extractLsb', BitVec.getLsbD_append]
  simp [lt]

@[simp] theorem fieldLen_commandWord (data : U32) (len : BitVec 3) (op : BitVec 4) :
    fieldLen (commandWord data len op) = len := by
  apply BitVec.eq_of_getLsbD_eq
  intro i lt
  simp only [fieldLen, commandWord, BitVec.getLsbD_extractLsb', BitVec.getLsbD_append]
  interval_cases i <;> simp

@[simp] theorem fieldRsv_commandWord (data : U32) (len : BitVec 3) (op : BitVec 4) :
    fieldRsv (commandWord data len op) = 0#25 := by
  apply BitVec.eq_of_getLsbD_eq
  intro i lt
  simp only [fieldRsv, commandWord, BitVec.getLsbD_extractLsb', BitVec.getLsbD_append]
  interval_cases i <;> simp

@[simp] theorem fieldData_commandWord (data : U32) (len : BitVec 3) (op : BitVec 4) :
    fieldData (commandWord data len op) = data := by
  apply BitVec.eq_of_getLsbD_eq
  intro i lt
  simp only [fieldData, commandWord, BitVec.getLsbD_extractLsb', BitVec.getLsbD_append]
  interval_cases i <;> simp

@[simp] theorem fieldAboveOp_bare (op : BitVec 4) : fieldAboveOp (commandWord 0#32 0#3 op) = 0#60 := by
  apply BitVec.eq_of_getLsbD_eq
  intro i lt
  simp only [fieldAboveOp, commandWord, BitVec.getLsbD_extractLsb', BitVec.getLsbD_append]
  interval_cases i <;> simp

end Sys2Proof
end

