-- ==== Sys2Proof/Laws/Padding.lean ====
section
/-! SUPPORT. What the padding sequence of FINALIZE pushes (43_finalize.md R173). -/

namespace Sys2Proof.Machine

@[simp] theorem lengthBytes_length (l : U64) : (lengthBytes l).length = 8 := rfl

@[simp] theorem byteLanes_length (d : U32) : (byteLanes d).length = 4 := rfl

theorem appendBytes_length (len : BitVec 3) (data : U32) (legal : len.toNat ≤ 4) :
    (appendBytes len data).length = len.toNat := by
  simp [appendBytes, legal]

/-- A loop that holds for the next `k` fill counts and then stops pushes `k` zero bytes. -/
theorem zeroFillWhile_eq_pushAll (cond : BitVec 6 → Bool) (k n : Nat) (s : State) (enough : k ≤ n)
    (goes : ∀ i < k, cond (s.bufLen + BitVec.ofNat 6 i) = true)
    (stops : cond (s.bufLen + BitVec.ofNat 6 k) = false) :
    zeroFillWhile cond n s = pushAll (List.replicate k 0x00) s := by
  induction k generalizing n s with
  | zero =>
    cases n with
    | zero => rfl
    | succ n => simp_all [zeroFillWhile]
  | succ k ih =>
    obtain ⟨n, rfl⟩ : ∃ m, n = m + 1 := ⟨n - 1, by omega⟩
    have now : cond s.bufLen = true := by simpa using goes 0 (by omega)
    have shift (i : Nat) : (push 0x00 s).bufLen + BitVec.ofNat 6 i = s.bufLen + BitVec.ofNat 6 (i + 1) := by
      apply BitVec.eq_of_toNat_eq
      simp only [push_bufLen, BitVec.toNat_add, BitVec.toNat_ofNat]
      omega
    rw [zeroFillWhile, if_pos now, ih n (push 0x00 s) (by omega), List.replicate_succ, pushAll_cons]
    · intro i lt
      rw [shift]
      exact goes (i + 1) (by omega)
    · rw [shift]
      exact stops

/-- `while BUF_LEN != 0: push(0x00)`, entered with a block begun. -/
theorem zeroFill_to_block_end (s : State) (begun : s.bufLen ≠ 0#6) :
    zeroFillWhile (fun n => n != 0#6) 64 s = pushAll (List.replicate (64 - s.bufLen.toNat) 0x00) s := by
  have bound := s.bufLen.isLt
  have pos : s.bufLen.toNat ≠ 0 := fun e => begun (BitVec.eq_of_toNat_eq e)
  apply zeroFillWhile_eq_pushAll _ _ _ _ (by omega)
  · intro i lt
    simp only [bne_iff_ne, ne_eq]
    intro e
    have := congrArg BitVec.toNat e
    simp only [BitVec.toNat_add, BitVec.toNat_ofNat] at this
    omega
  · simp only [bne_eq_false_iff_eq]
    apply BitVec.eq_of_toNat_eq
    simp only [BitVec.toNat_add, BitVec.toNat_ofNat]
    omega

/-- `while BUF_LEN < 56: push(0x00)`, entered at 56 or below. -/
theorem zeroFill_to_length_field (s : State) (below : s.bufLen.toNat ≤ 56) :
    zeroFillWhile (fun n => n < 56#6) 64 s = pushAll (List.replicate (56 - s.bufLen.toNat) 0x00) s := by
  apply zeroFillWhile_eq_pushAll _ _ _ _ (by omega)
  · intro i lt
    simp only [decide_eq_true_eq, BitVec.lt_def, BitVec.toNat_add, BitVec.toNat_ofNat]
    omega
  · simp only [decide_eq_false_iff_not, BitVec.lt_def, BitVec.toNat_add, BitVec.toNat_ofNat]
    omega

/-- The whole padding sequence as one list of bytes: 0x80, zeros to 8 bytes before a block end, the length. -/
theorem pushPadding_eq_pushAll (l : U64) (s : State) :
    pushPadding l s =
      pushAll (0x80 :: List.replicate ((119 - s.bufLen.toNat) % 64) 0x00 ++ lengthBytes l) s := by
  have bound := s.bufLen.isLt
  have marked : (push 0x80 s).bufLen.toNat = (s.bufLen.toNat + 1) % 64 := by simp [BitVec.toNat_add]
  simp only [pushPadding, List.cons_append, pushAll_cons, pushAll_append]
  congr 1
  by_cases crowded : 56#6 < (push 0x80 s).bufLen
  · have past : 56 < (s.bufLen.toNat + 1) % 64 := by rw [← marked]; exact crowded
    have begun : (push 0x80 s).bufLen ≠ 0#6 := by
      intro e; rw [e] at marked; simp at marked; omega
    rw [if_pos crowded, zeroFill_to_block_end _ begun, zeroFill_to_length_field, ← pushAll_append,
      List.replicate_append_replicate]
    · congr 2
      simp only [pushAll_bufLen_toNat, marked, List.length_replicate]
      omega
    · simp only [pushAll_bufLen_toNat, marked, List.length_replicate]
      omega
  · have within : (s.bufLen.toNat + 1) % 64 ≤ 56 := by
      rw [← marked]; exact Nat.le_of_not_lt crowded
    rw [if_neg crowded, zeroFill_to_length_field _ (by rw [marked]; exact within), marked]
    congr 2
    omega

end Sys2Proof.Machine
end

