-- ==== Sys2Proof/Laws/Exec.lean ====
section
/-! SUPPORT. What each meaning, the schedule and a step can do, said once: later proofs cite these and unfold none. -/

namespace Sys2Proof.Machine

/-- APPEND refuses its argument, refuses its phase, or pushes its bytes (60_exceptions.md R212). -/
theorem execAppend_cases (len : BitVec 3) (data : U32) (s : State) :
    (4 < len.toNat ∧ execAppend len data s = .next (raise .arg s)) ∨
    (len.toNat ≤ 4 ∧ s.phase = .finalized ∧ execAppend len data s = .next (raise .state s)) ∨
    (len.toNat ≤ 4 ∧ s.phase ≠ .finalized ∧ execAppend len data s =
      .next (complete { pushAll (appendBytes len data) s with phase := .accumulating })) := by
  unfold execAppend
  split
  · exact .inl ⟨‹_›, rfl⟩
  · have legal : len.toNat ≤ 4 := by omega
    split
    · exact .inr (.inl ⟨legal, ‹_›, rfl⟩)
    · exact .inr (.inr ⟨legal, ‹_›, rfl⟩)

/-- The bytes FINALIZE pushes in state `s` (43_finalize.md R173). -/
def paddingBytes (s : State) : List U8 :=
  0x80 :: List.replicate ((119 - s.bufLen.toNat) % 64) 0x00 ++ lengthBytes (messageLength s.blocks s.bufLen)

theorem paddingBytes_length (s : State) : (paddingBytes s).length = (119 - s.bufLen.toNat) % 64 + 9 := by
  simp only [paddingBytes, List.length_append, List.length_cons, List.length_replicate, lengthBytes_length]

/-- The padded message ends at a block end. -/
theorem paddingBytes_fill (s : State) : (s.bufLen.toNat + (paddingBytes s).length) % 64 = 0 := by
  have := s.bufLen.isLt
  rw [paddingBytes_length]
  omega

/-- FINALIZE refuses its phase, or pushes the padding and freezes (43_finalize.md R170). -/
theorem execFinalize_cases (s : State) :
    (s.phase = .finalized ∧ execFinalize s = .next (raise .state s)) ∨
    (s.phase ≠ .finalized ∧ execFinalize s =
      .next (complete (countDraw (forgetBuf { pushAll (paddingBytes s) s with phase := .finalized })))) := by
  unfold execFinalize
  split
  · exact .inl ⟨‹_›, rfl⟩
  · exact .inr ⟨‹_›, by rw [pushPadding_eq_pushAll]; rfl⟩

/-- READ delivers a word, and counts a draw when the word is a free value (44_control.md R194). -/
theorem execRead_cases (a : U8) (s : State) :
    (s.resetLine = false ∧ s.busy = false ∧ execRead a s = .next (deliver (registerWord a s) s)) ∨
    ((s.resetLine = true ∨ s.busy = true) ∧ ∃ w, execRead a s = .next (countDraw (deliver w s))) := by
  unfold execRead
  split
  · exact .inr ⟨.inl ‹_›, _, rfl⟩
  · split
    · refine .inr ⟨.inr ‹_›, ?_⟩
      split <;> exact ⟨_, rfl⟩
    · exact .inl ⟨by simp_all, by simp_all, rfl⟩

/-- Everything an instruction can do, its guards included. -/
theorem exec_cases {i : Instr} {s t : State} (h : exec i s = .next t) :
    (i = .init ∧ t = complete (clearErrors (startFresh s))) ∨
    (i = .clrErr ∧ t = complete (clearErrors s)) ∨
    (∃ len data, i = .append len data ∧ 4 < len.toNat ∧ t = raise .arg s) ∨
    (∃ len data, i = .append len data ∧ len.toNat ≤ 4 ∧ s.phase = .finalized ∧ t = raise .state s) ∨
    (∃ len data, i = .append len data ∧ len.toNat ≤ 4 ∧ s.phase ≠ .finalized ∧
      t = complete { pushAll (appendBytes len data) s with phase := .accumulating }) ∨
    (i = .finalize ∧ s.phase = .finalized ∧ t = raise .state s) ∨
    (i = .finalize ∧ s.phase ≠ .finalized ∧
      t = complete (countDraw (forgetBuf { pushAll (paddingBytes s) s with phase := .finalized }))) ∨
    (∃ a, i = .read a ∧ s.resetLine = false ∧ s.busy = false ∧ t = deliver (registerWord a s) s) ∨
    (∃ a w, i = .read a ∧ (s.resetLine = true ∨ s.busy = true) ∧ t = countDraw (deliver w s)) := by
  cases i with
  | init => cases h; exact .inl ⟨rfl, rfl⟩
  | clrErr => cases h; exact .inr (.inl ⟨rfl, rfl⟩)
  | append len data =>
    simp only [exec] at h
    rcases execAppend_cases len data s with ⟨g, e⟩ | ⟨g, p, e⟩ | ⟨g, p, e⟩ <;> rw [e] at h <;> cases h
    · exact .inr (.inr (.inl ⟨len, data, rfl, g, rfl⟩))
    · exact .inr (.inr (.inr (.inl ⟨len, data, rfl, g, p, rfl⟩)))
    · exact .inr (.inr (.inr (.inr (.inl ⟨len, data, rfl, g, p, rfl⟩))))
  | finalize =>
    simp only [exec] at h
    rcases execFinalize_cases s with ⟨p, e⟩ | ⟨p, e⟩ <;> rw [e] at h <;> cases h
    · exact .inr (.inr (.inr (.inr (.inr (.inl ⟨rfl, p, rfl⟩)))))
    · exact .inr (.inr (.inr (.inr (.inr (.inr (.inl ⟨rfl, p, rfl⟩))))))
  | read a =>
    simp only [exec] at h
    rcases execRead_cases a s with ⟨r, b, e⟩ | ⟨rb, w, e⟩ <;> rw [e] at h <;> cases h
    · exact .inr (.inr (.inr (.inr (.inr (.inr (.inr (.inl ⟨a, rfl, r, b, rfl⟩)))))))
    · exact .inr (.inr (.inr (.inr (.inr (.inr (.inr (.inr ⟨a, w, rfl, rb, rfl⟩)))))))

/-- Everything the schedule can choose, with the conditions under which it does. -/
theorem schedule_cases (s : State) :
    (∃ rest, s.script = .assertReset :: rest ∧ schedule s = (.assertReset, rest)) ∨
    (∃ rest, s.script = .releaseReset :: rest ∧ schedule s = (.releaseReset, rest)) ∨
    (∃ a rest, s.script = .read a :: rest ∧ schedule s = (.run (.readAddress a), rest)) ∨
    (∃ cw rest, s.script = .offer cw :: rest ∧ s.resetLine = true ∧ schedule s = (.releaseReset, s.script)) ∨
    (∃ cw rest, s.script = .offer cw :: rest ∧ s.resetLine = false ∧ s.busy = true ∧
      schedule s = (.run (.command s.pending), s.script)) ∨
    (∃ cw rest, s.script = .offer cw :: rest ∧ s.resetLine = false ∧ s.busy = false ∧
      schedule s = (.accept cw, rest)) ∨
    ((s.script = [] ∨ ∃ rest, s.script = .pause :: rest) ∧ s.resetLine = false ∧ s.busy = true ∧
      schedule s = (.run (.command s.pending), s.script.tail)) ∨
    ((s.script = [] ∨ ∃ rest, s.script = .pause :: rest) ∧ (s.resetLine = true ∨ s.busy = false) ∧
      schedule s = (.idle, s.script.tail)) := by
  cases e : s.script with
  | nil => cases r : s.resetLine <;> cases b : s.busy <;> simp [schedule, e, r, b]
  | cons ev rest => cases ev <;> cases r : s.resetLine <;> cases b : s.busy <;> simp [schedule, e, r, b]

end Sys2Proof.Machine
end

