-- ==== Sys2Proof/Laws/Message.lean ====
section
/-! SUPPORT. The message the core has taken in: what one push adds to it (41_accumulator.md R124, R129). -/

namespace Sys2Proof.Machine

@[simp] theorem compressBlocks_zero (m : List U8) : compressBlocks m 0 = iv := rfl

theorem compressBlocks_succ (m : List U8) (n : Nat) :
    compressBlocks m (n + 1) = compress (compressBlocks m n) (blockAt m n) := by
  simp [compressBlocks, List.range_succ]

@[simp] theorem getElem_blockAt (m : List U8) (i j : Nat) (lt : j < 64) :
    (blockAt m i)[j] = m.getD (64 * i + j) 0 := by
  simp [blockAt]

/-- A block that lies inside `m` does not see what follows `m`. -/
theorem blockAt_append (m rest : List U8) (i : Nat) (inside : 64 * (i + 1) ≤ m.length) :
    blockAt (m ++ rest) i = blockAt m i := by
  apply Vector.ext
  intro j lt
  rw [getElem_blockAt, getElem_blockAt, List.getD_append _ _ _ _ (by omega)]

/-- The blocks that lie inside `m` do not see what follows `m`. -/
theorem compressBlocks_append (m rest : List U8) (n : Nat) (inside : 64 * n ≤ m.length) :
    compressBlocks (m ++ rest) n = compressBlocks m n := by
  induction n with
  | zero => rw [compressBlocks_zero, compressBlocks_zero]
  | succ n ih => rw [compressBlocks_succ, compressBlocks_succ, ih (by omega), blockAt_append m rest n (by omega)]

/-- The empty message is what a fresh core has taken in, whatever its buffer holds (R129). -/
theorem accumulates_nil {s : State} (h : s.h = iv) (len : s.bufLen = 0#6) (blocks : s.blocks = 0#64) :
    Accumulates [] s where
  blocks := by simpa using blocks
  bufLen := by simp [len]
  pendingBytes j lt := by simp at lt
  h := by simpa using h

/-- Pushing a byte takes the message one byte further. -/
theorem Accumulates.push {m : List U8} {s : State} (acc : Accumulates m s) (b : U8) :
    Accumulates (m ++ [b]) (push b s) := by
  have hlen : (m ++ [b]).length = m.length + 1 := by simp
  have last : (m ++ [b]).getD m.length 0 = b := by simp
  have older (k : Nat) (lt : k < m.length) : (m ++ [b]).getD k 0 = m.getD k 0 := List.getD_append _ _ _ _ lt
  have len := acc.bufLen
  rcases push_cases b s with ⟨full, e⟩ | ⟨open_, e⟩
  · have at63 : m.length % 64 = 63 := by rw [← len, full]; rfl
    have whole : bufWrite s.bufLen b s.buf = blockAt (m ++ [b]) (m.length / 64) := by
      apply Vector.ext
      intro j lt
      rw [getElem_bufWrite, getElem_blockAt]
      split
      · rw [show 64 * (m.length / 64) + j = m.length by omega, last]
      · rw [older _ (by omega)]
        exact acc.pendingBytes ⟨j, lt⟩ (show j < m.length % 64 by omega)
    rw [e]
    refine ⟨?_, ?_, ?_, ?_⟩
    · rw [hlen, show (m.length + 1) / 64 = m.length / 64 + 1 by omega]
      simp [acc.blocks, BitVec.ofNat_add]
    · rw [hlen]; simp only [blockReady_bufLen, BitVec.toNat_ofNat]; omega
    · intro j lt; rw [hlen] at lt; omega
    · rw [hlen, show (m.length + 1) / 64 = m.length / 64 + 1 by omega, compressBlocks_succ,
        compressBlocks_append m [b] _ (by omega), blockReady_h, whole, acc.h]
  · have below : m.length % 64 ≠ 63 := by
      intro c; exact open_ (BitVec.eq_of_toNat_eq (by rw [len, c]; rfl))
    have same : (m.length + 1) / 64 = m.length / 64 := by omega
    rw [e]
    refine ⟨?_, ?_, ?_, ?_⟩
    · rw [hlen, same]; exact acc.blocks
    · rw [hlen, BitVec.toNat_add, len]; simp only [BitVec.toNat_ofNat]; omega
    · intro j lt
      rw [hlen] at lt
      rw [hlen, same]
      show (bufWrite s.bufLen b s.buf)[j.val] = _
      rw [getElem_bufWrite]
      split
      · rw [show 64 * (m.length / 64) + j.val = m.length by omega, last]
      · rw [older _ (by omega)]
        exact acc.pendingBytes j (by omega)
    · rw [hlen, same, compressBlocks_append m [b] _ (by omega)]; exact acc.h

/-- Pushing the bytes of a list takes the message further by them. -/
theorem Accumulates.pushAll {m : List U8} {s : State} (acc : Accumulates m s) (bs : List U8) :
    Accumulates (m ++ bs) (pushAll bs s) := by
  induction bs generalizing m s with
  | nil => simpa using acc
  | cons b bs ih => simpa using ih (acc.push b)

/-- The message depends on `H`, BUF, `BUF_LEN` and `BLOCKS` alone. -/
theorem Accumulates.congr {m : List U8} {s t : State} (acc : Accumulates m s)
    (h : t.h = s.h) (buf : t.buf = s.buf) (len : t.bufLen = s.bufLen) (blocks : t.blocks = s.blocks) :
    Accumulates m t where
  blocks := by rw [blocks]; exact acc.blocks
  bufLen := by rw [len]; exact acc.bufLen
  pendingBytes := by rw [buf]; exact acc.pendingBytes
  h := by rw [h]; exact acc.h

end Sys2Proof.Machine
end

