-- ==== Sys2Proof/Laws/PerInstr.lean ====
section
/-! SUPPORT. A fact about every instruction as a term, one lemma per constructor. -/

namespace Sys2Proof.Laws.Spelling

/-- The instruction is spelled by a well-formed word of its port: a command word whose OP is assigned and whose
must-be-zero fields are zero, or a read address (30_encoding.md R82, R85, R87). -/
def Statement (i : Instr) : Prop := (encode i).wellFormed = true

theorem init : Statement .init := rfl

theorem append (len : BitVec 3) (data : U32) : Statement (.append len data) := by
  have masked : commandWord data len 0x2 &&& 0x00000000FFFFFF8F = 0x0000000000000002 := by
    apply BitVec.eq_of_getLsbD_eq
    intro i lt
    simp only [commandWord, BitVec.getLsbD_and, BitVec.getLsbD_append]
    interval_cases i <;> simp
  exact List.any_of_mem (a := ⟨"APPEND", 0x0000000000000002, 0x00000000FFFFFF8F⟩) (by simp [matchRows])
    (beq_iff_eq.mpr masked)

theorem finalize : Statement .finalize := rfl

theorem clrErr : Statement .clrErr := rfl

theorem read (a : U8) : Statement (.read a) := rfl

end Sys2Proof.Laws.Spelling
end

