-- ==== Sys2Proof/Laws/Step.lean ====
section
/-! SUPPORT. A step from its schedule, what a completing command leaves alone, and runs of several steps. -/

namespace Sys2Proof.Machine

/-- A step performs the scheduled action on the state with the events that are left. -/
theorem step_of_schedule {s : State} {a : Action} {rest : List Event} (h : schedule s = (a, rest)) :
    step s = perform a (withScript rest s) := by
  simp [step, h]

@[simp] theorem perform_accept (cw : U64) (s : State) : perform (.accept cw) s = .next (accept cw s) := rfl

@[simp] theorem perform_assertReset (s : State) : perform .assertReset s = .next (assertReset s) := rfl

@[simp] theorem perform_releaseReset (s : State) : perform .releaseReset s = .next (releaseReset s) := rfl

@[simp] theorem perform_idle (s : State) : perform .idle s = .next s := rfl

@[simp] theorem perform_run_read (a : U8) (s : State) : perform (.run (.readAddress a)) s = exec (.read a) s := rfl

theorem perform_run_command_ok {cw : U64} {i : Instr} (d : decodeCommand cw = .ok i) (s : State) :
    perform (.run (.command cw)) s = exec i s := by
  simp [perform, decode, d]

theorem perform_run_command_error {cw : U64} {why : Illegal} (d : decodeCommand cw = .error why) (s : State) :
    perform (.run (.command cw)) s = .next (raise .opc s) := by
  simp [perform, decode, d, completeIllegal]

/-- Setting the script to what it is changes nothing. -/
@[simp] theorem withScript_script_self (s : State) : withScript s.script s = s := rfl

/-- No instruction moves what only the ports and the reset input move. -/
theorem exec_port_frame {i : Instr} {s t : State} (h : exec i s = .next t) :
    t.pending = s.pending ∧ t.script = s.script ∧ t.resetLine = s.resetLine := by
  rcases exec_cases h with ⟨rfl, rfl⟩ | ⟨rfl, rfl⟩ | ⟨l, x, rfl, g, rfl⟩ | ⟨l, x, rfl, g, p, rfl⟩ |
    ⟨l, x, rfl, g, p, rfl⟩ | ⟨rfl, p, rfl⟩ | ⟨rfl, p, rfl⟩ | ⟨a, rfl, r, b, rfl⟩ | ⟨a, w, rfl, rb, rfl⟩ <;> simp

/-- A command word never decodes to a read (30_encoding.md R87). -/
theorem decodeCommand_ne_read (cw : U64) (a : U8) : decodeCommand cw ≠ .ok (.read a) := by
  simp only [decodeCommand, decodeAppend, decodeBare]
  split_ifs <;> simp

/-- A command that completes clears BUSY (70_reset_and_hazards.md R235). -/
theorem exec_command_busy {i : Instr} {s t : State} (notRead : ∀ a, i ≠ .read a) (h : exec i s = .next t) :
    t.busy = false := by
  rcases exec_cases h with ⟨rfl, rfl⟩ | ⟨rfl, rfl⟩ | ⟨l, x, rfl, g, rfl⟩ | ⟨l, x, rfl, g, p, rfl⟩ |
    ⟨l, x, rfl, g, p, rfl⟩ | ⟨rfl, p, rfl⟩ | ⟨rfl, p, rfl⟩ | ⟨a, rfl, r, b, rfl⟩ | ⟨a, w, rfl, rb, rfl⟩
  case inr.inr.inr.inr.inr.inr.inr.inl => exact absurd rfl (notRead a)
  case inr.inr.inr.inr.inr.inr.inr.inr => exact absurd rfl (notRead a)
  all_goals simp

/-- A completing command word, legal or not, clears BUSY and leaves the ports alone. -/
theorem run_command_frame {cw : U64} {s t : State} (h : perform (.run (.command cw)) s = .next t) :
    t.busy = false ∧ t.pending = s.pending ∧ t.script = s.script ∧ t.resetLine = s.resetLine := by
  cases d : decodeCommand cw with
  | ok i =>
    rw [perform_run_command_ok d] at h
    exact ⟨exec_command_busy (fun a e => decodeCommand_ne_read cw a (e ▸ d)) h, exec_port_frame h⟩
  | error why =>
    rw [perform_run_command_error d] at h
    cases h
    simp

/-! ## Commands do not look at the ports -/

/-- The state with other contents of what only the ports move. -/
def withPorts (pending : U64) (script : List Event) (busy : Bool) (s : State) : State :=
  { s with pending := pending, script := script, busy := busy }

theorem push_withPorts (b : U8) (p : U64) (e : List Event) (y : Bool) (s : State) :
    push b (withPorts p e y s) = withPorts p e y (push b s) := by
  by_cases full : s.bufLen = 63#6 <;> simp [push, withPorts, blockReady, full]

theorem pushAll_withPorts (bs : List U8) (p : U64) (e : List Event) (y : Bool) (s : State) :
    pushAll bs (withPorts p e y s) = withPorts p e y (pushAll bs s) := by
  induction bs generalizing s with
  | nil => rfl
  | cons b bs ih => rw [pushAll_cons, push_withPorts, ih, pushAll_cons]

/-- A command's effect does not depend on PENDING, on the script or on BUSY, and is carried over with them. -/
theorem exec_withPorts {i : Instr} {s t : State} (notRead : ∀ a, i ≠ .read a) (h : exec i s = .next t)
    (p : U64) (e : List Event) (y : Bool) : exec i (withPorts p e y s) = .next (withPorts p e false t) := by
  cases i with
  | init => cases h; rfl
  | clrErr => cases h; rfl
  | append len data =>
    simp only [exec] at h ⊢
    rcases execAppend_cases len data s with ⟨g, eq⟩ | ⟨g, ph, eq⟩ | ⟨g, ph, eq⟩ <;> rw [eq] at h <;> cases h
    · simp only [execAppend, if_pos g]; rfl
    · simp only [execAppend, if_neg (Nat.not_lt.mpr g)]
      rw [if_pos (show (withPorts p e y s).phase = .finalized from ph)]; rfl
    · simp only [execAppend, if_neg (Nat.not_lt.mpr g)]
      rw [if_neg (show (withPorts p e y s).phase ≠ .finalized from ph), pushAll_withPorts]; rfl
  | finalize =>
    simp only [exec] at h ⊢
    rcases execFinalize_cases s with ⟨ph, eq⟩ | ⟨ph, eq⟩ <;> rw [eq] at h <;> cases h
    · rw [execFinalize, if_pos (show (withPorts p e y s).phase = .finalized from ph)]; rfl
    · rcases execFinalize_cases (withPorts p e y s) with ⟨ph', -⟩ | ⟨-, eq'⟩
      · exact absurd ph' ph
      · rw [eq', show paddingBytes (withPorts p e y s) = paddingBytes s from rfl, pushAll_withPorts]; rfl
  | read a => exact absurd rfl (notRead a)

/-- The same of a completing command word, legal or not. -/
theorem run_command_withPorts {cw : U64} {s t : State} (h : perform (.run (.command cw)) s = .next t)
    (p : U64) (e : List Event) (y : Bool) :
    perform (.run (.command cw)) (withPorts p e y s) = .next (withPorts p e false t) := by
  cases d : decodeCommand cw with
  | ok i =>
    rw [perform_run_command_ok d] at h ⊢
    exact exec_withPorts (fun a eq => decodeCommand_ne_read cw a (eq ▸ d)) h p e y
  | error why =>
    rw [perform_run_command_error d] at h ⊢
    cases h
    rfl

/-! ## Runs -/

@[simp] theorem runFor_zero (s : State) : runFor 0 s = .next s := rfl

/-- One step more, taken first. -/
theorem runFor_succ {s t : State} (h : step s = .next t) (k : Nat) : runFor (k + 1) s = runFor k t := by
  simp only [runFor, h]

/-- Runs compose. -/
theorem runFor_add {s t : State} {k : Nat} (h : runFor k s = .next t) (l : Nat) :
    runFor (k + l) s = runFor l t := by
  induction k generalizing s with
  | zero => cases h; rw [Nat.zero_add]
  | succ k ih =>
    cases st : step s with
    | next u =>
      rw [runFor_succ st] at h
      rw [show k + 1 + l = k + l + 1 by omega, runFor_succ st, ih h]
    | fault r => exact nomatch r
    | refused r => simp only [runFor, st, reduceCtorEq] at h

theorem run_succ_of_next (M : Host.Core) {s t : M.State} (h : M.step s = .next t) (k : Nat) :
    M.run (k + 1) s = M.run k t := by
  simp only [Host.Core.run, h]

theorem run_succ_of_refused (M : Host.Core) {s : M.State} {r : M.Refusal} (h : M.step s = .refused r) (k : Nat) :
    M.run (k + 1) s = .refused r := by
  simp only [Host.Core.run, h]

/-- `runFor` is the host's own run of this machine. -/
theorem runFor_eq_core_run (k : Nat) (s : State) : runFor k s = core.run k s := by
  induction k generalizing s with
  | zero => rfl
  | succ k ih =>
    cases h : step s with
    | next t => rw [runFor_succ h, ih]; exact (run_succ_of_next core h k).symm
    | fault r => exact nomatch r
    | refused r =>
      have stopped : runFor (k + 1) s = .refused r := by simp only [runFor, h]
      rw [stopped]
      exact (run_succ_of_refused core h k).symm

end Sys2Proof.Machine
end

