-- ==== Sys2Proof/Tests/Slice0.lean ====
section
/-! SUPPORT. Tests, each against a value of spec/ (the table or rule is named), and the witnesses: for every obligation
with hypotheses, states and operands that meet them, at the ends of their ranges. -/

namespace Sys2Proof.Tests

open Sys2Proof.Machine

/-- The state an outcome answers, and the reset state where it answers none (no test meets that case). -/
def after : Host.Outcome State Fault Refusal → State
  | .next t => t
  | .fault _ => State.reset
  | .refused _ => State.reset

/-- A core between commands: byte `j` of BUF is `j`, the fill count and the phase are given. -/
def between (bufLen : BitVec 6) (phase : Phase) : State :=
  { State.reset with buf := Vector.ofFn fun j => BitVec.ofNat 8 j.val, bufLen := bufLen, phase := phase }

/-- A core with an accepted word and a host that does nothing. -/
def pendingCore (cw : U64) : State :=
  { between 3 .accumulating with busy := true, pending := cw, script := [.pause] }

/-- The block of 64 zero bytes. -/
def zeroBlock : Vector U8 64 := Vector.replicate 64 0

/-- The padded message "abc", 95_test_vectors.md 2.2. -/
def abcBlock : Vector U8 64 :=
  Vector.ofFn fun j => [0x61, 0x62, 0x63, 0x80].getD j.val (if j.val = 63 then 0x18 else 0)

/-- ASCII "abc". -/
def abc : List U8 := [0x61, 0x62, 0x63]

/-! ## Well-formedness: ill-formed terms are refused (30_encoding.md R81, R85, R86; 95_test_vectors.md 2.5) -/

theorem test_append_counts_above_four_are_ill_formed :
    (List.range 8).map (fun n => (Instr.append (BitVec.ofNat 3 n) 0).wellFormed) =
      [true, true, true, true, true, false, false, false] := by decide

theorem test_words_that_spell_no_command_are_ill_formed :
    ([0x0, 0x5, 0xF, 0x11, 0x13, 0x82, 0x80000002, 0x0000000100000003, 0x8000000000000004].map fun cw : U64 =>
      (PortWord.command cw).wellFormed) = List.replicate 9 false := by decide

theorem test_reserved_and_nonzero_words_are_refused_by_name :
    decode (.command 0xF) = .error .reservedOpcode ∧ decode (.command 0x5) = .error .reservedOpcode ∧
      decode (.command 0x11) = .error .nonzeroReserved ∧ decode (.command 0x82) = .error .nonzeroReserved ∧
      decode (.command 0x80000002) = .error .nonzeroReserved ∧
      decode (.command 0x0000000100000003) = .error .nonzeroReserved := by decide

/-! ## Decoding: words written out bit by bit from the encodings of 30_encoding.md R81 and R82 -/

theorem test_decode_init_bits :
    decode (.command 0b0000000000000000000000000000000000000000000000000000000000000001) = .ok .init := by decide

theorem test_decode_append_bits :
    decode (.command 0b0110000101100010011000110000000000000000000000000000000000110010) =
      .ok (.append 3 0x61626300) := by decide

theorem test_decode_append_all_data_bits :
    decode (.command 0xffffffff00000042) = .ok (.append 4 0xffffffff) := by decide

theorem test_decode_finalize_bits :
    decode (.command 0b0000000000000000000000000000000000000000000000000000000000000011) = .ok .finalize := by decide

theorem test_decode_clrErr_bits :
    decode (.command 0b0000000000000000000000000000000000000000000000000000000000000100) = .ok .clrErr := by decide

theorem test_decode_read_bits : decode (.readAddress 0b10000001) = .ok (.read 0x81) := by decide

/-- R89: the word of `APPEND 4, 0x48656C6C` is the one of R93. -/
theorem test_encode_append : encode (.append 4 0x48656C6C) = .command 0x48656C6C00000042 := by decide

theorem test_table_words :
    decodeTableWord 64 0x6162630000000032 = some (.append 3 0x61626300) ∧ decodeTableWord 64 0x13 = none ∧
      decodeTableWord 8 0x04 = some (.read 0x04) ∧ decodeTableWord 64 0x04 = some .clrErr := by decide

/-! ## The bitwise function unit, 95_test_vectors.md 2.1 -/

theorem test_rotr : rotr 0x12345678 8 = 0x78123456 ∧ rotr 0x12345678 25 = 0x1a2b3c09 ∧
    rotr 0x80000000 7 = 0x01000000 ∧ rotr 1 2 = 0x40000000 := by decide

theorem test_shr_add32 : shr 0x80000000 3 = 0x10000000 ∧ shr 0xffffffff 3 = 0x1fffffff ∧
    add32 0xffffffff 1 = 0 ∧ add32 0x80000000 0x80000000 = 0 := by decide

theorem test_ch_maj : ch 0x510e527f 0x9b05688c 0x1f83d9ab = 0x1f85c98c ∧
    maj 0x6a09e667 0xbb67ae85 0x3c6ef372 = 0x3a6fe667 := by decide

theorem test_big_sigmas : bigSigma0 0x6a09e667 = 0xce20b47e ∧ bigSigma1 0x510e527f = 0x3587272b ∧
    bigSigma0 0x80000000 = 0x20040200 ∧ bigSigma1 0x80000000 = 0x02100040 := by decide

theorem test_small_sigmas : smallSigma0 0x6a09e667 = 0xba0cf582 ∧ smallSigma1 0x510e527f = 0xe3640132 ∧
    smallSigma0 0xffffffff = 0x1fffffff ∧ smallSigma1 0xffffffff = 0x003fffff := by decide

/-! ## The compression core, 95_test_vectors.md 2.2 to 2.4 -/

theorem test_schedule_of_abc :
    let w := expand (blockWords abcBlock)
    w.take 1 = [0x61626380] ∧
    (w.drop 15).take 9 =
      [0x18, 0x61626380, 0x000f0000, 0x7da86405, 0x600003c6, 0x3e9d7b78, 0x0183fc00, 0x12dcbfdb, 0xe2e2c38e] ∧
    w.drop 60 = [0xa43fcf15, 0x668b2ff8, 0xeeaba2cc, 0x12b1edeb] := by decide +kernel

theorem test_rounds_of_abc :
    rounds ((expand (blockWords abcBlock)).take 1) (initWorking iv) =
      ⟨0x5d6aebcd, 0x6a09e667, 0xbb67ae85, 0x3c6ef372, 0xfa2a4622, 0x510e527f, 0x9b05688c, 0x1f83d9ab⟩ ∧
    rounds (expand (blockWords abcBlock)) (initWorking iv) =
      ⟨0x506e3058, 0xd39a2165, 0x04d24d6c, 0xb85e2ce9, 0x5ef50f24, 0xfb121210, 0x948d25b6, 0x961f4894⟩ := by
  decide +kernel

theorem test_compress_zero_block :
    compress iv zeroBlock = #v[0xda5698be, 0x17b9b469, 0x62335799, 0x779fbeca, 0x8ce5d491, 0xc0d26243, 0xbafef9ea,
      0x1837a9d8] ∧
    compress (Vector.replicate 8 0) zeroBlock = #v[0x7ca51614, 0x425c3ba8, 0xce54dd2f, 0xc2020ae7, 0xb6e574d1,
      0x98136d0f, 0xae7e26cc, 0xbf0be7a6] := by decide +kernel

/-! ## The instructions, 95_test_vectors.md 2.6 to 2.8 -/

/-- Row 1 of 2.6. -/
theorem test_append_abc_from_reset :
    let t := after (exec (.append 3 0x61626300) State.reset)
    statusWord t = 0x00030001 ∧ t.blocks = 0 ∧ t.h = iv ∧ (t.buf.toList.take 3) = abc := by decide +kernel

/-- Row 4 of 2.6: a block completes in the middle of the command. -/
theorem test_append_across_a_block :
    let t := after (exec (.append 4 0x11223344) (between 62 .accumulating))
    statusWord t = 0x00020001 ∧ t.blocks = 1 ∧ t.buf.toList.take 3 = [0x33, 0x44, 0x02] ∧
      t.h = compress iv (Vector.ofFn fun j => if j.val = 62 then 0x11 else if j.val = 63 then 0x22
        else BitVec.ofNat 8 j.val) := by decide +kernel

/-- 2.7: the padding of 55 zero bytes fits in one block, that of 56 and of 63 needs two. -/
theorem test_finalize_one_or_two_blocks :
    let from' := fun n : BitVec 6 => after (exec .finalize { between n .accumulating with buf := zeroBlock })
    (digestBytes (from' 55).h).take 4 = [0x02, 0x77, 0x94, 0x66] ∧ (from' 55).blocks = 1 ∧
    (digestBytes (from' 56).h).take 4 = [0xd4, 0x81, 0x7a, 0xa5] ∧ (from' 56).blocks = 2 ∧
    (digestBytes (from' 63).h).drop 28 = [0x70, 0xf3, 0xd9, 0x71] ∧ (from' 63).blocks = 2 := by decide +kernel

/-- 2.7, the length wrap of R172. -/
theorem test_message_length_wraps :
    messageLength 0x80000000000000 0 = 0 ∧ messageLength 0xffffffffffffffff 63 = 0xfffffffffffffff8 := by decide

/-- 2.8: CLRERR on STATUS 00030201. -/
theorem test_clrErr :
    let s := { between 3 .accumulating with errArg := true }
    statusWord s = 0x00030201 ∧ statusWord (after (exec .clrErr s)) = 0x00030001 := by decide

/-- 2.8: INIT after an operation, and what DIGEST0 then reads. -/
theorem test_init_discards_the_digest :
    let t := after (exec .init { between 0 .finalized with blocks := 1, errState := true })
    statusWord t = 0 ∧ t.blocks = 0 ∧ registerWord 0x08 t = 0 := by decide

/-- 2.8: INFO, reserved addresses, DIGEST7 of a finalized core. -/
theorem test_read_words :
    ([0x03, 0x04, 0x07, 0x10, 0xff, 0x0f].map fun a : U8 =>
      (after (exec (.read a) (between 0 .finalized))).received) = [[0x2040], [0], [0], [0], [0], [0x5be0cd19]] := by
  decide

/-- S1, S2 and S3 of 95_test_vectors.md. -/
theorem test_source_vectors :
    digestBytes (sha256 []) = [0xe3, 0xb0, 0xc4, 0x42, 0x98, 0xfc, 0x1c, 0x14, 0x9a, 0xfb, 0xf4, 0xc8, 0x99, 0x6f,
      0xb9, 0x24, 0x27, 0xae, 0x41, 0xe4, 0x64, 0x9b, 0x93, 0x4c, 0xa4, 0x95, 0x99, 0x1b, 0x78, 0x52, 0xb8, 0x55] ∧
    sha256 abc = #v[0xba7816bf, 0x8f01cfea, 0x414140de, 0x5dae2223, 0xb00361a3, 0x96177a9c, 0xb410ff61, 0xf20015ad] ∧
    sha256 [0x48, 0x65, 0x6C, 0x6C, 0x6F, 0x2C, 0x20, 0x77, 0x6F, 0x72, 0x6C, 0x64, 0x21] =
      #v[0x315f5bdb, 0x76d078c4, 0x3b8ac006, 0x4e4a0164, 0x612b1fce, 0x77c86934, 0x5bfc94c7, 0x5894edd3] := by
  decide +kernel

/-- Program P1: the three commands leave the digest of "abc" (S2). -/
theorem test_program_p1_commands :
    let t := after (execAll [.init, .append 3 0x61626300, .finalize] State.reset)
    statusWord t = 2 ∧ t.blocks = 1 ∧ t.h = sha256 abc := by decide +kernel

/-- A placed word is the first instruction after reset. -/
theorem test_placed_words_run_first :
    statusWord (after (step (State.reset.withFetchWord 64 0x6162630000000032))) = 0x00030001 ∧
      (after (step (State.reset.withFetchWord 8 0x03))).received = [0x2040] := by decide +kernel

/-! ## Witnesses: the hypotheses of each obligation are met -/

/-- The reset state, and a core in the middle of a message whose `H` is not `IV`, have the invariant. -/
theorem witness_Invariant_reset : Invariant State.reset := ⟨by decide, by decide, by decide⟩

theorem witness_Invariant_between : Invariant { between 63 .accumulating with h := Vector.replicate 8 7, blocks := 9 } :=
  ⟨by decide, by decide, by decide⟩

theorem witness_Invariant_finalized : Invariant { between 0 .finalized with blocks := 1, errState := true } :=
  ⟨by decide, by decide, by decide⟩

theorem witness_Invariant_held : Invariant { State.reset with resetLine := true, script := [.offer 1] } :=
  ⟨by decide, by decide, by decide⟩

theorem witness_AssertingResetRestoresEveryElement :
    { pendingCore 2 with script := [.assertReset] : State }.script = .assertReset :: [] := rfl

/-- Reset asserted, by way of a pause and of an offered word. -/
theorem witness_NothingMovesWhileResetIsAsserted :
    let s := { State.reset with resetLine := true }
    Invariant s ∧ s.resetLine = true ∧ step { s with script := [.pause] } = .next s ∧
      step { s with script := [.offer 1] } = .next { s with resetLine := false, script := [.offer 1] } :=
  ⟨⟨by decide, by decide, by decide⟩, rfl, rfl, rfl⟩

theorem witness_EveryDecodedWordIsAnEncoding :
    decode (.command 0xffffffff00000072) = .ok (.append 7 0xffffffff) ∧ decode (.readAddress 0xff) = .ok (.read 0xff) := by
  decide

/-- A busy core with each of the three scripts, and a read of a busy core. -/
theorem witness_StepRunsTheDecodedInstruction :
    (pendingCore 4).busy = true ∧ (pendingCore 4).resetLine = false ∧ decode (.command (pendingCore 4).pending) = .ok .clrErr ∧
      (pendingCore 4).script = .pause :: [] ∧ { pendingCore 4 with script := [] : State }.script = [] ∧
      { pendingCore 4 with script := [.offer 3] : State }.script = .offer 3 :: [] ∧
      { pendingCore 4 with script := [.read 0] : State }.script = .read 0 :: [] := by decide

theorem witness_PlacedWordIsRunNext :
    decodeTableWord 64 0x3 = some .finalize ∧ decodeTableWord 8 0xff = some (.read 0xff) := by decide

theorem witness_HandshakeAcceptsOnlyWhenIdle :
    let idle := { State.reset with script := [.offer 3] }
    let busy := { pendingCore 1 with script := [.offer 3] }
    idle.script = .offer 3 :: [] ∧ idle.resetLine = false ∧ idle.busy = false ∧
      busy.script = .offer 3 :: [] ∧ busy.resetLine = false ∧ busy.busy = true := by decide

theorem witness_CompletionAlwaysHappens : Invariant { pendingCore 0x52 with script := List.replicate 3 (.read 0) } :=
  ⟨by decide, by decide, by decide⟩

/-- The three ways BUSY changes. -/
theorem witness_BusyChangesOnlyAtAcceptanceCompletionAndReset :
    step { State.reset with script := [.offer 3] } = .next { State.reset with pending := 3, busy := true } ∧
      (after (step (pendingCore 4))).busy = false ∧
      (after (step { pendingCore 4 with script := [.assertReset] })).busy = false := by
  refine ⟨rfl, ?_⟩
  decide +kernel

/-- Each kind of illegal word: OP 0x0, 0x5 and 0xF; the lowest and the highest must-be-zero bit. -/
theorem witness_IllegalWordSetsErrOpcAlone :
    ([0x0, 0x5, 0xF].map fun cw : U64 => decide (cw.extractLsb' 0 4 ∉ [0x1, 0x2, 0x3, 0x4])) = [true, true, true] ∧
    ([0x11, 0x8000000000000003, 0x14].map fun cw : U64 =>
      decide (cw.extractLsb' 0 4 ∈ [0x1, 0x3, 0x4] ∧ cw.extractLsb' 4 60 ≠ 0)) = [true, true, true] ∧
    ([0x82, 0x80000002].map fun cw : U64 =>
      decide (cw.extractLsb' 0 4 = 0x2 ∧ cw.extractLsb' 7 25 ≠ 0)) = [true, true] ∧
    (∀ script ∈ ([[], [.pause], [.offer 1]] : List (List Event)),
      (schedule { pendingCore 0x82 with script := script }).1 = .run (.command 0x82)) := by decide

theorem witness_CommandsTakeEffectInOrder :
    let s := { State.reset with script := [.offer 0x6162630000000032, .offer 0x13, .offer 0x3, .pause, .read 0] }
    s.busy = false ∧ s.resetLine = false ∧
      s.script = ([0x6162630000000032, 0x13, 0x3] : List U64).map .offer ++ .pause :: [.read 0] := by decide

/-- The least and the greatest amount, the least and the greatest bit. -/
theorem witness_RotateRightMovesBits :
    ((1 : Nat) ≤ 1 ∧ 1 ≤ 31 ∧ 0 < 32) ∧ ((1 : Nat) ≤ 31 ∧ 31 ≤ 31 ∧ 31 < 32) ∧
      (rotr 0x80000001 1).getLsbD 31 = (0x80000001 : U32).getLsbD 0 := by decide

/-- Bit 31 of the operands; the clauses of `SigmaFunctionsBitByBit` at bit 28 and 29, where σ0's shift runs out. -/
theorem witness_ChooseSelectsAndMajorityVotes :
    (31 : Nat) < 32 ∧ (ch 0x80000000 0x80000000 0).getLsbD 31 = true ∧ (maj 0x80000000 0x80000000 0).getLsbD 31 = true := by
  decide

theorem witness_SigmaFunctionsBitByBit :
    (28 : Nat) < 32 ∧ (29 : Nat) < 32 ∧ (smallSigma0 0x80000000).getLsbD 28 = true ∧
      (smallSigma0 0x80000000).getLsbD 29 = false := by decide

theorem witness_ScheduleFollowsTheRecurrence :
    (blockWords abcBlock).length = 16 ∧ (15 : Nat) < 16 ∧ (16 : Nat) ≤ 16 ∧ (63 : Nat) < 64 := by decide

/-- Both sides of the block boundary, at its edge: 59 + 4 bytes and 60 + 4 bytes; 63 + 0 and 63 + 1. -/
theorem witness_AppendCountsBytesAndCompressesAFullBlock :
    (∀ n ∈ ([0, 1, 4] : List (BitVec 3)), n.toNat ≤ 4) ∧
    (∀ b ∈ ([0, 59, 60, 63] : List (BitVec 6)), (between b .accumulating).phase ≠ .finalized) ∧
    State.reset.phase ≠ .finalized ∧
    (between 59 .accumulating).bufLen.toNat + 4 < 64 ∧ ¬ (between 60 .accumulating).bufLen.toNat + 4 < 64 ∧
    (between 63 .accumulating).bufLen.toNat + 0 < 64 ∧ ¬ (between 63 .accumulating).bufLen.toNat + 1 < 64 := by decide

/-- A lane that wraps to index 0, and an index that no lane reaches. -/
theorem witness_AppendStoresItsLanesAndNothingElse :
    (4 : BitVec 3).toNat ≤ 4 ∧ (between 61 .accumulating).phase ≠ .finalized ∧ (3 : Nat) < (4 : BitVec 3).toNat ∧
      ((between 61 .accumulating).bufLen.toNat + 3) % 64 = 0 ∧
      (∀ i < (4 : BitVec 3).toNat, ((between 61 .accumulating).bufLen.toNat + i) % 64 ≠ 1) := by decide

theorem witness_ZeroLengthAppendOnlyMovesPhase :
    State.reset.phase ≠ .finalized ∧ (between 63 .accumulating).phase ≠ .finalized ∧ (between 0 .finalized).phase = .finalized := by
  decide

theorem witness_AppendOfMoreThanFourRaisesErrArg :
    (after (exec (.append 5 0) (between 0 .finalized))).errArg = true ∧
      (after (exec (.append 7 0) State.reset)).errArg = true ∧ (7 : BitVec 3) = 7 := by decide

theorem witness_FinalizedRefusesAppendAndFinalize :
    (between 0 .finalized).phase = .finalized ∧ (0 : BitVec 3).toNat ≤ 4 ∧ (4 : BitVec 3).toNat ≤ 4 := by decide

/-- Both clauses of the FINALIZE statements, at 0, 55, 56 and 63 pending bytes. -/
theorem witness_FinalizeEndState :
    (∀ b ∈ ([0, 55, 56, 63] : List (BitVec 6)), (between b .accumulating).phase ≠ .finalized) ∧
      (between 0 .fresh).phase ≠ .finalized := by decide

theorem witness_FinalizeCompressesThePaddedBlocks :
    (between 55 .accumulating).phase ≠ .finalized ∧ (between 55 .accumulating).bufLen.toNat ≤ 55 ∧
      State.reset.bufLen.toNat ≤ 55 ∧
      (between 56 .accumulating).phase ≠ .finalized ∧ 56 ≤ (between 56 .accumulating).bufLen.toNat ∧
      56 ≤ (between 63 .accumulating).bufLen.toNat := by decide

theorem witness_DigestBytesAreBigEndianWords :
    (digestBytes iv)[4 * (7 : Fin 8).val + 3]? = some 0x19 ∧ (digestBytes iv)[0]? = some 0x6a ∧ (3 : Nat) < 4 := by decide

/-- Each range of the register map at both of its ends. -/
theorem witness_IdleReadReturnsTheMappedRegister :
    (between 3 .accumulating).busy = false ∧ (between 3 .accumulating).resetLine = false ∧
      (0x08 : U8).toNat = 0x08 + (0 : Fin 8).val ∧ (0x0F : U8).toNat = 0x08 + (7 : Fin 8).val ∧
      (∀ a ∈ ([0x04, 0x07, 0x10, 0xFF] : List U8), 0x04 ≤ a.toNat ∧ a.toNat ≤ 0x07 ∨ 0x10 ≤ a.toNat) ∧
      (∀ a ∈ ([0x03, 0x08, 0x0F] : List U8), ¬ (0x04 ≤ a.toNat ∧ a.toNat ≤ 0x07 ∨ 0x10 ≤ a.toNat)) := by decide

theorem witness_ReadAlwaysCompletesAndChangesNoState :
    (pendingCore 3).busy = true ∧ (pendingCore 3).resetLine = false ∧ (0x00 : U8) = 0x00 := by decide

theorem witness_ReadsWithoutCommandsAreConsistent :
    let s := { between 0 .finalized with script := [.read 0x01, .read 0x02, .offer 1] }
    s.busy = false ∧ s.resetLine = false ∧ s.script = ([0x01, 0x02] : List U8).map .read ++ [.offer 1] := by decide

/-- ERR_ARG and ERR_STATE, each newly set beside a bit that was set before. -/
theorem witness_AnErrorSetsOneBitAndKeepsTheRest :
    let s := { between 0 .finalized with errOpc := true }
    s.errArg = false ∧ s.errState = false ∧
      exec (.append 5 0) s = .next { s with errArg := true } ∧ exec .finalize s = .next { s with errState := true } :=
  ⟨rfl, rfl, rfl, rfl⟩

/-- A set bit through a completion that is no INIT or CLR_ERR, through an acceptance and through a read. -/
theorem witness_ErrorBitsAreSticky :
    let s := { pendingCore 0x52 with errOpc := true, errState := true }
    step s = .next { s with errArg := true, busy := false, script := [] } ∧
      (schedule s).1 ≠ .assertReset ∧ s.pending ≠ 1 ∧ s.pending ≠ 4 ∧ s.errOpc = true ∧ s.errState = true := by
  refine ⟨rfl, ?_⟩
  decide

/-- The three ways of FinalizedIsLeftOnlyByInitAndReset: reset, INIT, and a word that is not INIT. -/
theorem witness_FinalizedIsLeftOnlyByInitAndReset :
    let s := fun cw => { between 0 .finalized with busy := true, pending := cw, script := [.pause] }
    (s 1).phase = .finalized ∧ (after (step (s 1))).phase = .fresh ∧ (after (step (s 2))).phase = .finalized ∧
      (after (step { s 2 with script := [.assertReset] })).phase = .fresh := by decide +kernel

/-- An answer of each instruction; an APPEND in each of its three cases. -/
theorem witness_PhaseFollowsTheLifecycle :
    exec (.append 0 0) State.reset = .next { State.reset with phase := .accumulating } ∧
      exec (.append 0 0) (between 0 .finalized) = .next { between 0 .finalized with errState := true } ∧
      exec (.append 5 0) State.reset = .next { State.reset with errArg := true } ∧
      exec .init (between 0 .finalized) = .next { between 0 .fresh with h := iv } ∧
      (∃ t, exec .finalize State.reset = .next t) ∧ exec .clrErr State.reset = .next State.reset ∧
      exec (.read 0x03) State.reset = .next { State.reset with received := [0x2040] } :=
  ⟨rfl, rfl, rfl, rfl, ⟨_, rfl⟩, rfl, rfl⟩

theorem witness_EveryStepKeepsTheInvariant :
    Invariant (pendingCore 0x52) ∧
      step (pendingCore 0x52) = .next { pendingCore 0x52 with errArg := true, busy := false, script := [] } :=
  ⟨⟨by decide, by decide, by decide⟩, rfl⟩

/-- Two states that are not equal, in a byte of BUF at BUF_LEN and in PENDING while idle. -/
theorem witness_UnobservableStateInfluencesNothing :
    let s := between 63 .accumulating
    let t := { s with buf := bufWrite 63 0xff s.buf, pending := 5 }
    Indistinguishable s t ∧ s ≠ t :=
  ⟨⟨rfl, rfl, rfl, rfl, rfl, rfl, rfl, rfl, rfl, rfl, rfl, rfl, by decide +kernel, by decide⟩, by decide +kernel⟩

/-- Program P2's fragments, and the split of R90. -/
theorem witness_FragmentationDoesNotMatter :
    let as := [.append 4 0x48656C6C, .append 1 0x6F000000, .append 0 0, .append 4 0x2C20776F, .append 4 0x726C6421]
    let bs := updateCommands (messageOf as)
    State.reset.phase ≠ .finalized ∧ (∀ i ∈ as, isGoodAppend i = true) ∧ (∀ i ∈ bs, isGoodAppend i = true) ∧
      messageOf as = messageOf bs ∧ as ≠ bs ∧ (messageOf as).length = 13 := by decide

theorem witness_TotalsOverAMessage :
    (∀ i ∈ List.replicate 16 (Instr.append 4 0), isGoodAppend i = true) ∧
      (messageOf (List.replicate 16 (.append 4 0))).length = 64 := by decide

/-- Program P5's commands between the INIT and the FINALIZE, a read and a CLR_ERR. -/
theorem witness_DigestIsSha256OfTheMessage :
    let is := [.append 3 0x61626300, .append 5 0, .read 0x00, .clrErr]
    (∀ i ∈ is, isWithinMessage i = true) ∧ messageOf is = abc ∧ (messageOf is).length < 2 ^ 61 := by decide

theorem witness_HashReadsBackTheDigest :
    let s := { between 0 .finalized with script := hashEvents abc }
    s.busy = false ∧ s.resetLine = false ∧ s.script = hashEvents abc ++ [] ∧ abc.length < 2 ^ 61 := by decide

theorem witness_InitMakesOperationsIndependent :
    (∀ i ∈ [Instr.append 4 1, .finalize, .finalize, .clrErr, .init], isCommand i = true) ∧
      State.reset ≠ between 63 .accumulating := by decide +kernel

end Sys2Proof.Tests
end

section
/-! SUPPORT. One equation per case of `exec`, the decoder read backwards (30_encoding.md R83, R85), and the ways a step
can go: the whole-machine statements below cite these. -/

namespace Sys2Proof.Machine

/-! ## Execution: one equation per case -/

theorem exec_append_of_long {len : BitVec 3} (long : 4 < len.toNat) (data : U32) (s : State) :
    exec (.append len data) s = .next (raise .arg s) := by
  rw [exec, execAppend, if_pos long]

theorem exec_append_of_finalized {len : BitVec 3} (legal : len.toNat ≤ 4) (data : U32) {s : State}
    (final : s.phase = .finalized) : exec (.append len data) s = .next (raise .state s) := by
  rw [exec, execAppend, if_neg (Nat.not_lt.mpr legal), if_pos final]

theorem exec_append_of_open {len : BitVec 3} (legal : len.toNat ≤ 4) (data : U32) {s : State}
    (notFinal : s.phase ≠ .finalized) : exec (.append len data) s =
      .next (complete { pushAll (appendBytes len data) s with phase := .accumulating }) := by
  rw [exec, execAppend, if_neg (Nat.not_lt.mpr legal), if_neg notFinal]

theorem exec_finalize_of_finalized {s : State} (final : s.phase = .finalized) :
    exec .finalize s = .next (raise .state s) := by
  rw [exec, execFinalize, if_pos final]

theorem exec_finalize_of_open {s : State} (notFinal : s.phase ≠ .finalized) : exec .finalize s =
    .next (complete (countDraw (forgetBuf { pushAll (paddingBytes s) s with phase := .finalized }))) :=
  (execFinalize_cases s).resolve_left (fun refused => notFinal refused.1) |>.2

theorem exec_read_of_idle (a : U8) {s : State} (idle : s.busy = false) (released : s.resetLine = false) :
    exec (.read a) s = .next (deliver (registerWord a s) s) := by
  rw [exec, execRead, if_neg (by simp [released]), if_neg (by simp [idle])]

/-- A read delivers one word, which may be a free value. -/
theorem exec_read_cases {a : U8} {s t : State} (h : exec (.read a) s = .next t) :
    ∃ w, t = deliver w s ∨ t = countDraw (deliver w s) := by
  rcases execRead_cases a s with ⟨-, -, e⟩ | ⟨-, w, e⟩ <;> rw [exec, e] at h <;> cases h
  · exact ⟨_, .inl rfl⟩
  · exact ⟨w, .inr rfl⟩

/-- The padded message ends at a block end, so its last push empties the buffer (R175). -/
theorem pushAll_paddingBytes_bufLen (s : State) : (pushAll (paddingBytes s) s).bufLen = 0#6 := by
  apply BitVec.eq_of_toNat_eq
  rw [pushAll_bufLen_toNat, paddingBytes_fill]
  rfl

/-! ## Decoding read backwards (30_encoding.md R83, R85) -/

/-- Everything a word that decodes can be: its OP, its must-be-zero field, and the instruction. -/
theorem decodeCommand_cases {cw : U64} {i : Instr} (h : decodeCommand cw = .ok i) :
    (fieldOp cw = 0x2 ∧ fieldRsv cw = 0 ∧ i = .append (fieldLen cw) (fieldData cw)) ∨
    (fieldOp cw = 0x1 ∧ fieldAboveOp cw = 0 ∧ i = .init) ∨
    (fieldOp cw = 0x3 ∧ fieldAboveOp cw = 0 ∧ i = .finalize) ∨
    (fieldOp cw = 0x4 ∧ fieldAboveOp cw = 0 ∧ i = .clrErr) := by
  simp only [decodeCommand, decodeAppend, decodeBare] at h
  split_ifs at h with append rsv init above finalize above clrErr above <;> cases h
  · exact .inl ⟨append, rsv, rfl⟩
  · exact .inr (.inl ⟨init, above, rfl⟩)
  · exact .inr (.inr (.inl ⟨finalize, above, rfl⟩))
  · exact .inr (.inr (.inr ⟨clrErr, above, rfl⟩))

/-- A word with no operand bits is its OP. -/
theorem eq_fieldOp_of_fieldAboveOp_eq_zero {cw : U64} (bare : fieldAboveOp cw = 0) : cw = 0#60 ++ fieldOp cw :=
  calc cw = cw.extractLsb' 0 64 := BitVec.extractLsb'_eq_self.symm
    _ = fieldAboveOp cw ++ fieldOp cw :=
      (BitVec.extractLsb'_append_extractLsb'_eq_extractLsb' (start₁ := 0) (len₁ := 4) (len₂ := 60) rfl).symm
    _ = 0#60 ++ fieldOp cw := by rw [bare]; rfl

/-- INIT has one spelling. -/
theorem eq_one_of_decodeCommand_init {cw : U64} (h : decodeCommand cw = .ok .init) : cw = 0x0000000000000001 := by
  obtain ⟨op, bare⟩ : fieldOp cw = 0x1 ∧ fieldAboveOp cw = 0 := by simpa using decodeCommand_cases h
  rw [eq_fieldOp_of_fieldAboveOp_eq_zero bare, op]
  rfl

/-- CLR_ERR has one spelling. -/
theorem eq_four_of_decodeCommand_clrErr {cw : U64} (h : decodeCommand cw = .ok .clrErr) :
    cw = 0x0000000000000004 := by
  obtain ⟨op, bare⟩ : fieldOp cw = 0x4 ∧ fieldAboveOp cw = 0 := by simpa using decodeCommand_cases h
  rw [eq_fieldOp_of_fieldAboveOp_eq_zero bare, op]
  rfl

/-! ## What a step can do -/

/-- The ways a step takes `s` to its next state, each with the action the schedule chose and its guards. -/
inductive StepEffect (s : State) : State → Prop
  | assertReset {rest : List Event} (chosen : schedule s = (.assertReset, rest)) :
      StepEffect s (assertReset (withScript rest s))
  | releaseReset {rest : List Event} (chosen : schedule s = (.releaseReset, rest)) :
      StepEffect s (releaseReset (withScript rest s))
  | accept {cw : U64} {rest : List Event} (chosen : schedule s = (.accept cw, rest))
      (released : s.resetLine = false) (idle : s.busy = false) : StepEffect s (accept cw (withScript rest s))
  | idle {rest : List Event} (chosen : schedule s = (.idle, rest)) : StepEffect s (withScript rest s)
  | read {a : U8} {rest : List Event} {t : State} (chosen : schedule s = (.run (.readAddress a), rest))
      (ran : exec (.read a) (withScript rest s) = .next t) : StepEffect s t
  | command {i : Instr} {rest : List Event} {t : State} (chosen : schedule s = (.run (.command s.pending), rest))
      (released : s.resetLine = false) (busy : s.busy = true) (decoded : decodeCommand s.pending = .ok i)
      (ran : exec i (withScript rest s) = .next t) : StepEffect s t
  | illegal {why : Illegal} {rest : List Event} (chosen : schedule s = (.run (.command s.pending), rest))
      (released : s.resetLine = false) (busy : s.busy = true) (refused : decodeCommand s.pending = .error why) :
      StepEffect s (raise .opc (withScript rest s))

/-- A busy core whose schedule completes the pending word runs it or refuses it. -/
theorem stepEffect_of_completion {s t : State} {rest : List Event}
    (chosen : schedule s = (.run (.command s.pending), rest)) (released : s.resetLine = false)
    (busy : s.busy = true) (h : step s = .next t) : StepEffect s t := by
  rw [step_of_schedule chosen] at h
  cases decoded : decodeCommand s.pending with
  | ok i =>
    rw [perform_run_command_ok decoded] at h
    exact .command chosen released busy decoded h
  | error why =>
    rw [perform_run_command_error decoded] at h
    cases h
    exact .illegal chosen released busy decoded

/-- Every step that answers is one of the effects. -/
theorem stepEffect_of_step {s t : State} (h : step s = .next t) : StepEffect s t := by
  rcases schedule_cases s with ⟨rest, -, c⟩ | ⟨rest, -, c⟩ | ⟨a, rest, -, c⟩ | ⟨cw, rest, -, -, c⟩ |
    ⟨cw, rest, -, r, b, c⟩ | ⟨cw, rest, -, r, b, c⟩ | ⟨-, r, b, c⟩ | ⟨-, -, c⟩
  case inr.inr.inr.inr.inl => exact stepEffect_of_completion c r b h
  case inr.inr.inr.inr.inr.inr.inl => exact stepEffect_of_completion c r b h
  all_goals rw [step_of_schedule c] at h
  case inr.inr.inl => exact .read c h
  all_goals cases h
  · exact .assertReset c
  · exact .releaseReset c
  · exact .releaseReset c
  · exact .accept c r b
  · exact .idle c

end Sys2Proof.Machine
end

section
/-! PROOFS. The invariant of 10_state.md R37: it holds at reset and every step keeps it. -/

namespace Sys2Proof.Machine

theorem Invariant.withScript {s : State} (inv : Invariant s) (rest : List Event) : Invariant (withScript rest s) :=
  ⟨inv.fresh, inv.finalized, inv.held⟩

theorem Invariant.deliver {s : State} (inv : Invariant s) (w : U32) : Invariant (deliver w s) :=
  ⟨inv.fresh, inv.finalized, inv.held⟩

theorem Invariant.countDraw {s : State} (inv : Invariant s) : Invariant (countDraw s) :=
  ⟨inv.fresh, inv.finalized, inv.held⟩

theorem Invariant.assertReset (s : State) : Invariant (assertReset s) :=
  ⟨fun _ => ⟨rfl, rfl, rfl⟩, fun _ => rfl, fun _ => ⟨rfl, rfl, rfl, rfl, rfl⟩⟩

/-- While reset is released the clause about an asserted reset line says nothing. -/
theorem Invariant.of_released {s : State} (released : s.resetLine = false)
    (fresh : s.phase = .fresh → s.bufLen = 0#6 ∧ s.blocks = 0#64 ∧ s.h = iv)
    (finalized : s.phase = .finalized → s.bufLen = 0#6) : Invariant s :=
  ⟨fresh, finalized, fun held => absurd held (by simp [released])⟩

theorem Invariant.raise {s : State} (inv : Invariant s) (e : ErrorClass) (released : s.resetLine = false) :
    Invariant (raise e s) :=
  .of_released (by simpa) (by simpa using inv.fresh) (by simpa using inv.finalized)

/-- A read keeps the invariant, reset asserted or not. -/
theorem Invariant.exec_read {a : U8} {s t : State} (inv : Invariant s) (h : exec (.read a) s = .next t) :
    Invariant t := by
  obtain ⟨w, rfl | rfl⟩ := exec_read_cases h
  · exact inv.deliver w
  · exact (inv.deliver w).countDraw

/-- With reset released every instruction keeps the invariant. -/
theorem Invariant.exec {i : Instr} {s t : State} (inv : Invariant s) (h : exec i s = .next t)
    (released : s.resetLine = false) : Invariant t := by
  have released' : t.resetLine = false := (exec_port_frame h).2.2.trans released
  rcases exec_cases h with ⟨-, rfl⟩ | ⟨-, rfl⟩ | ⟨_, _, -, -, rfl⟩ | ⟨_, _, -, -, -, rfl⟩ |
    ⟨_, _, -, -, -, rfl⟩ | ⟨-, -, rfl⟩ | ⟨-, -, rfl⟩ | ⟨_, rfl, -⟩ | ⟨_, _, rfl, -⟩
  · exact .of_released released' (fun _ => ⟨rfl, rfl, rfl⟩) (fun _ => rfl)
  · exact .of_released released' inv.fresh inv.finalized
  · exact inv.raise .arg released
  · exact inv.raise .state released
  · exact .of_released released' (fun p => nomatch p) (fun p => nomatch p)
  · exact inv.raise .state released
  · exact .of_released released' (fun p => nomatch p) (fun _ => pushAll_paddingBytes_bufLen s)
  · exact inv.exec_read h
  · exact inv.exec_read h

/-- Settles O44, by the ways a step can go: reset establishes the invariant, a command runs with reset released, and
everything else leaves the fields the invariant speaks of alone. -/
theorem everyStepKeepsTheInvariant : Obligations.EveryStepKeepsTheInvariant := by
  intro s t inv h
  cases stepEffect_of_step h with
  | assertReset => exact .assertReset _
  | releaseReset => exact .of_released rfl inv.fresh inv.finalized
  | accept _ released _ => exact .of_released released inv.fresh inv.finalized
  | idle => exact inv.withScript _
  | read _ ran => exact (inv.withScript _).exec_read ran
  | command _ released _ _ ran => exact (inv.withScript _).exec ran released
  | illegal _ released _ _ => exact (inv.withScript _).raise .opc released

/-- Settles O43: every clause is about the literal values of R38. -/
theorem invariantHoldsAtReset : Obligations.InvariantHoldsAtReset :=
  .of_released rfl (fun _ => ⟨rfl, rfl, rfl⟩) (fun _ => rfl)

/-- Settles O1: the values of R38 are the literal fields of `State.reset`. -/
theorem resetLeavesFreshHasher : Obligations.ResetLeavesFreshHasher :=
  ⟨rfl, rfl, rfl, rfl, rfl, rfl, rfl, rfl⟩

end Sys2Proof.Machine
end

section
/-! PROOFS. Noninterference (10_state.md R41): every operation takes indistinguishable states to indistinguishable
states. -/

namespace Sys2Proof.Machine

theorem Indistinguishable.withScript {s t : State} (sim : Indistinguishable s t) (rest : List Event) :
    Indistinguishable (withScript rest s) (withScript rest t) :=
  { sim with script := rfl }

theorem Indistinguishable.complete {s t : State} (sim : Indistinguishable s t) :
    Indistinguishable (complete s) (complete t) :=
  { sim with busy := rfl, pending := nofun }

theorem Indistinguishable.clearErrors {s t : State} (sim : Indistinguishable s t) :
    Indistinguishable (clearErrors s) (clearErrors t) :=
  { sim with errOpc := rfl, errArg := rfl, errState := rfl }

theorem Indistinguishable.startFresh {s t : State} (sim : Indistinguishable s t) :
    Indistinguishable (startFresh s) (startFresh t) :=
  { sim with
    h := rfl
    bufLen := rfl
    blocks := rfl
    phase := rfl
    pendingBytes := fun j lt => absurd lt (Nat.not_lt_zero j) }

theorem Indistinguishable.setPhase {s t : State} (sim : Indistinguishable s t) (p : Phase) :
    Indistinguishable { s with phase := p } { t with phase := p } :=
  { sim with phase := rfl }

theorem Indistinguishable.raise {s t : State} (sim : Indistinguishable s t) (e : ErrorClass) :
    Indistinguishable (raise e s) (raise e t) := by
  cases e with
  | opc => exact { sim.complete with errOpc := rfl }
  | arg => exact { sim.complete with errArg := rfl }
  | state => exact { sim.complete with errState := rfl }

theorem Indistinguishable.countDraw {s t : State} (sim : Indistinguishable s t) :
    Indistinguishable (countDraw s) (countDraw t) :=
  { sim with draws := congrArg (· + 1) sim.draws }

theorem Indistinguishable.deliver {s t : State} (sim : Indistinguishable s t) (w : U32) :
    Indistinguishable (deliver w s) (deliver w t) :=
  { sim with received := congrArg (· ++ [w]) sim.received }

/-- Free bytes are the same on both sides: the two states have drawn equally often. -/
theorem Indistinguishable.forgetBuf {s t : State} (sim : Indistinguishable s t) :
    Indistinguishable (forgetBuf s) (forgetBuf t) :=
  { sim with pendingBytes := fun j _ => congrArg (fun n => (Config.freeBuf n)[j]) sim.draws }

theorem Indistinguishable.accept {s t : State} (sim : Indistinguishable s t) (cw : U64) :
    Indistinguishable (accept cw s) (accept cw t) :=
  { sim with busy := rfl, pending := fun _ => rfl }

theorem Indistinguishable.releaseReset {s t : State} (sim : Indistinguishable s t) :
    Indistinguishable (releaseReset s) (releaseReset t) :=
  { sim with resetLine := rfl }

theorem Indistinguishable.assertReset {s t : State} (sim : Indistinguishable s t) :
    Indistinguishable (assertReset s) (assertReset t) :=
  { sim.forgetBuf.startFresh.clearErrors.complete.countDraw with resetLine := rfl, pending := nofun }

/-- Once the byte at index `BUF_LEN` is written, the two buffers agree up to that index. -/
theorem Indistinguishable.storedBytes {s t : State} (sim : Indistinguishable s t) (b : U8) (j : Fin 64)
    (upTo : j.val ≤ s.bufLen.toNat) : (bufWrite s.bufLen b s.buf)[j] = (bufWrite t.bufLen b t.buf)[j] := by
  simp only [Fin.getElem_fin, getElem_bufWrite, ← sim.bufLen]
  split
  · rfl
  · exact sim.pendingBytes j (by omega)

/-- A push reads BUF only where it fills the block, and then every byte of it is a pending byte. -/
theorem Indistinguishable.push {s t : State} (sim : Indistinguishable s t) (b : U8) :
    Indistinguishable (push b s) (push b t) := by
  rcases push_cases b s with ⟨full, es⟩ | ⟨open_, es⟩ <;> rcases push_cases b t with ⟨full', et⟩ | ⟨open', et⟩ <;>
    rw [es, et]
  · have whole : bufWrite s.bufLen b s.buf = bufWrite t.bufLen b t.buf := by
      apply Vector.ext
      intro j lt
      exact sim.storedBytes b ⟨j, lt⟩ (by rw [full]; exact Nat.le_of_lt_succ lt)
    exact { sim with
      h := congrArg₂ compress sim.h whole
      bufLen := rfl
      blocks := congrArg (· + 1#64) sim.blocks
      pendingBytes := fun j lt => absurd lt (Nat.not_lt_zero j) }
  · exact absurd (sim.bufLen ▸ full) open'
  · exact absurd (sim.bufLen ▸ full') open_
  · exact { sim with
      bufLen := congrArg (· + 1#6) sim.bufLen
      pendingBytes := fun j lt => sim.storedBytes b j (by
        simp only [BitVec.toNat_add, BitVec.toNat_ofNat] at lt
        omega) }

theorem Indistinguishable.pushAll {s t : State} (sim : Indistinguishable s t) (bs : List U8) :
    Indistinguishable (pushAll bs s) (pushAll bs t) := by
  induction bs generalizing s t with
  | nil => exact sim
  | cons b bs ih => exact ih (sim.push b)

theorem Indistinguishable.paddingBytes_eq {s t : State} (sim : Indistinguishable s t) :
    paddingBytes s = paddingBytes t := by
  simp only [paddingBytes, sim.bufLen, sim.blocks]

theorem Indistinguishable.registerWord_eq {s t : State} (sim : Indistinguishable s t) (a : U8) :
    registerWord a s = registerWord a t := by
  simp only [registerWord, statusWord, digestWord, sim.h, sim.bufLen, sim.blocks, sim.phase, sim.errOpc, sim.errArg,
    sim.errState, sim.busy]

/-- PENDING is scheduled only while busy, when the two states agree on it. -/
theorem Indistinguishable.schedule_eq {s t : State} (sim : Indistinguishable s t) : schedule s = schedule t := by
  cases busy : s.busy with
  | false => simp only [schedule, sim.script, sim.resetLine, ← sim.busy, busy, Bool.false_eq_true, if_false]
  | true => simp only [schedule, sim.script, sim.resetLine, ← sim.busy, sim.pending busy]

/-- Both outcomes are next states, and indistinguishable. -/
def AnswerAlike (o o' : Host.Outcome State Fault Refusal) : Prop :=
  ∃ s' t', o = .next s' ∧ o' = .next t' ∧ Indistinguishable s' t'

theorem AnswerAlike.next {s' t' : State} (sim : Indistinguishable s' t') : AnswerAlike (.next s') (.next t') :=
  ⟨s', t', rfl, rfl, sim⟩

theorem Indistinguishable.exec_append {s t : State} (sim : Indistinguishable s t) (len : BitVec 3) (data : U32) :
    AnswerAlike (exec (.append len data) s) (exec (.append len data) t) := by
  by_cases legal : len.toNat ≤ 4
  · by_cases final : s.phase = .finalized
    · rw [exec_append_of_finalized legal data final, exec_append_of_finalized legal data (sim.phase ▸ final)]
      exact .next (sim.raise .state)
    · rw [exec_append_of_open legal data final, exec_append_of_open legal data (sim.phase ▸ final)]
      exact .next ((sim.pushAll _).setPhase .accumulating).complete
  · rw [exec_append_of_long (Nat.lt_of_not_le legal), exec_append_of_long (Nat.lt_of_not_le legal)]
    exact .next (sim.raise .arg)

theorem Indistinguishable.exec_finalize {s t : State} (sim : Indistinguishable s t) :
    AnswerAlike (exec .finalize s) (exec .finalize t) := by
  by_cases final : s.phase = .finalized
  · rw [exec_finalize_of_finalized final, exec_finalize_of_finalized (sim.phase ▸ final)]
    exact .next (sim.raise .state)
  · rw [exec_finalize_of_open final, exec_finalize_of_open (sim.phase ▸ final), sim.paddingBytes_eq]
    exact .next ((sim.pushAll _).setPhase .finalized).forgetBuf.countDraw.complete

/-- A read's guards and its word are those of parts on which the two states agree. -/
theorem Indistinguishable.exec_read {s t : State} (sim : Indistinguishable s t) (a : U8) :
    AnswerAlike (exec (.read a) s) (exec (.read a) t) := by
  simp only [exec, execRead, sim.resetLine, sim.busy, sim.draws, sim.registerWord_eq a]
  split
  · exact .next (sim.deliver _).countDraw
  · split
    · split <;> exact .next (sim.deliver _).countDraw
    · exact .next (sim.deliver _)

theorem Indistinguishable.exec {s t : State} (sim : Indistinguishable s t) (i : Instr) :
    AnswerAlike (exec i s) (exec i t) := by
  cases i with
  | init => exact .next sim.startFresh.clearErrors.complete
  | append len data => exact sim.exec_append len data
  | finalize => exact sim.exec_finalize
  | clrErr => exact .next sim.clearErrors.complete
  | read a => exact sim.exec_read a

theorem Indistinguishable.perform {s t : State} (sim : Indistinguishable s t) (a : Action) :
    AnswerAlike (perform a s) (perform a t) := by
  cases a with
  | run w =>
    cases w with
    | command cw =>
      cases decoded : decodeCommand cw with
      | ok i =>
        rw [perform_run_command_ok decoded, perform_run_command_ok decoded]
        exact sim.exec i
      | error why =>
        rw [perform_run_command_error decoded, perform_run_command_error decoded]
        exact .next (sim.raise .opc)
    | readAddress a => exact sim.exec_read a
  | accept cw => exact .next (sim.accept cw)
  | assertReset => exact .next sim.assertReset
  | releaseReset => exact .next sim.releaseReset
  | idle => exact .next sim

/-- Settles O45, by simulation: the two states schedule the same action, and every action takes indistinguishable states
to indistinguishable states. -/
theorem unobservableStateInfluencesNothing : Obligations.UnobservableStateInfluencesNothing := by
  intro s t sim
  show AnswerAlike (step s) (step t)
  obtain ⟨⟨a, rest⟩, chosen⟩ : ∃ choice, schedule s = choice := ⟨_, rfl⟩
  rw [step_of_schedule chosen, step_of_schedule (sim.schedule_eq ▸ chosen)]
  exact (sim.withScript rest).perform a

end Sys2Proof.Machine
end

section
/-! PROOFS. What a step may do to BUSY, to the error bits and to PHASE. -/

namespace Sys2Proof.Machine

/-! ## BUSY (10_state.md R40) -/

/-- BUSY goes from 0 to 1 by acceptance alone, and from 1 to 0 by completion or reset alone. -/
def BusyRule (s t : State) : Prop :=
  (s.busy = false → t.busy = true → ∃ cw, (schedule s).1 = .accept cw ∧ t.pending = cw) ∧
  (s.busy = true → t.busy = false → (schedule s).1 = .run (.command s.pending) ∨ (schedule s).1 = .assertReset)

theorem BusyRule.of_eq {s t : State} (same : t.busy = s.busy) : BusyRule s t :=
  ⟨fun idle set => absurd set (by simp [same, idle]), fun busy clear => absurd clear (by simp [same, busy])⟩

theorem BusyRule.of_completion {s t : State} (busy : s.busy = true)
    (completes : (schedule s).1 = .run (.command s.pending)) : BusyRule s t :=
  ⟨fun idle => absurd busy (by simp [idle]), fun _ _ => .inl completes⟩

/-- Settles O13, by the ways a step can go: acceptance sets BUSY, reset and completion clear it, and every other way
leaves it alone. -/
theorem busyChangesOnlyAtAcceptanceCompletionAndReset :
    Obligations.BusyChangesOnlyAtAcceptanceCompletionAndReset := by
  intro s t h
  show BusyRule s t
  cases stepEffect_of_step h with
  | assertReset chosen =>
    exact ⟨fun _ set => Bool.noConfusion set, fun _ _ => .inr (congrArg Prod.fst chosen)⟩
  | releaseReset => exact .of_eq rfl
  | accept chosen =>
    exact ⟨fun _ _ => ⟨_, congrArg Prod.fst chosen, rfl⟩, fun _ clear => Bool.noConfusion clear⟩
  | idle => exact .of_eq rfl
  | read _ ran => obtain ⟨w, rfl | rfl⟩ := exec_read_cases ran <;> exact .of_eq rfl
  | command chosen _ busy => exact .of_completion busy (congrArg Prod.fst chosen)
  | illegal chosen _ busy => exact .of_completion busy (congrArg Prod.fst chosen)

/-! ## Error bits (10_state.md R27, 60_exceptions.md R214) -/

/-- Every error bit that is set in `s` is set in `t`. -/
def KeepsErrors (s t : State) : Prop :=
  (s.errOpc = true → t.errOpc = true) ∧ (s.errArg = true → t.errArg = true) ∧ (s.errState = true → t.errState = true)

theorem KeepsErrors.of_eq {s t : State} (opc : t.errOpc = s.errOpc) (arg : t.errArg = s.errArg)
    (state : t.errState = s.errState) : KeepsErrors s t :=
  ⟨opc.trans, arg.trans, state.trans⟩

theorem keepsErrors_raise (e : ErrorClass) (s : State) : KeepsErrors s (raise e s) := by
  cases e with
  | opc => exact ⟨fun _ => rfl, id, id⟩
  | arg => exact ⟨id, fun _ => rfl, id⟩
  | state => exact ⟨id, id, fun _ => rfl⟩

/-- INIT and CLR_ERR are the only instructions that clear an error bit. -/
theorem exec_keepsErrors {i : Instr} {s t : State} (h : exec i s = .next t) (notInit : i ≠ .init)
    (notClrErr : i ≠ .clrErr) : KeepsErrors s t := by
  rcases exec_cases h with ⟨init, -⟩ | ⟨clrErr, -⟩ | ⟨_, _, -, -, rfl⟩ | ⟨_, _, -, -, -, rfl⟩ |
    ⟨_, _, -, -, -, rfl⟩ | ⟨-, -, rfl⟩ | ⟨-, -, rfl⟩ | ⟨_, -, -, -, rfl⟩ | ⟨_, _, -, -, rfl⟩
  · exact absurd init notInit
  · exact absurd clrErr notClrErr
  · exact keepsErrors_raise .arg s
  · exact keepsErrors_raise .state s
  · exact .of_eq (by simp) (by simp) (by simp)
  · exact keepsErrors_raise .state s
  · exact .of_eq (by simp) (by simp) (by simp)
  · exact .of_eq rfl rfl rfl
  · exact .of_eq rfl rfl rfl

/-- Settles O40: of what a step can run, only reset, INIT and CLR_ERR clear an error bit, and the pending word spells
INIT or CLR_ERR in one way each. -/
theorem errorBitsAreSticky : Obligations.ErrorBitsAreSticky := by
  intro s t h notReset notClearing
  show KeepsErrors s t
  cases stepEffect_of_step h with
  | assertReset chosen => exact absurd (congrArg Prod.fst chosen) notReset
  | releaseReset => exact .of_eq rfl rfl rfl
  | accept => exact .of_eq rfl rfl rfl
  | idle => exact .of_eq rfl rfl rfl
  | read _ ran => exact (exec_keepsErrors ran nofun nofun :)
  | command chosen _ _ decoded ran =>
    obtain ⟨notOne, notFour⟩ := notClearing (congrArg Prod.fst chosen)
    have notInit : _ ≠ Instr.init := fun e => notOne (eq_one_of_decodeCommand_init (e ▸ decoded))
    have notClrErr : _ ≠ Instr.clrErr := fun e => notFour (eq_four_of_decodeCommand_clrErr (e ▸ decoded))
    exact (exec_keepsErrors ran notInit notClrErr :)
  | illegal => exact keepsErrors_raise .opc _

/-! ## PHASE (10_state.md R26) -/

/-- In FINALIZED no instruction but INIT moves PHASE, `H`, `BUF_LEN` or `BLOCKS`. -/
theorem exec_keeps_digest {i : Instr} {s t : State} (h : exec i s = .next t) (final : s.phase = .finalized)
    (notInit : i ≠ .init) :
    t.phase = .finalized ∧ t.h = s.h ∧ t.bufLen = s.bufLen ∧ t.blocks = s.blocks := by
  rcases exec_cases h with ⟨init, -⟩ | ⟨-, rfl⟩ | ⟨_, _, -, -, rfl⟩ | ⟨_, _, -, -, -, rfl⟩ |
    ⟨_, _, -, -, notFinal, -⟩ | ⟨-, -, rfl⟩ | ⟨-, notFinal, -⟩ | ⟨_, -, -, -, rfl⟩ | ⟨_, _, -, -, rfl⟩
  case inl => exact absurd init notInit
  case inr.inr.inr.inr.inl => exact absurd final notFinal
  case inr.inr.inr.inr.inr.inr.inl => exact absurd final notFinal
  all_goals simp [final]

/-- Settles O41: reset and INIT are the exceptions the statement names, and in FINALIZED nothing else a step can run
writes the four registers. -/
theorem finalizedIsLeftOnlyByInitAndReset : Obligations.FinalizedIsLeftOnlyByInitAndReset := by
  intro s t h final
  cases stepEffect_of_step h with
  | assertReset chosen => exact .inl (congrArg Prod.fst chosen)
  | releaseReset => exact .inr (.inr ⟨final, rfl, rfl, rfl⟩)
  | accept => exact .inr (.inr ⟨final, rfl, rfl, rfl⟩)
  | idle => exact .inr (.inr ⟨final, rfl, rfl, rfl⟩)
  | read _ ran => exact .inr (.inr (exec_keeps_digest ran final nofun :))
  | @command i _ _ chosen _ _ decoded ran =>
    by_cases init : i = .init
    · subst init
      exact .inr (.inl ⟨congrArg Prod.fst chosen, eq_one_of_decodeCommand_init decoded⟩)
    · exact .inr (.inr (exec_keeps_digest ran final init :))
  | illegal => exact .inr (.inr ⟨final, rfl, rfl, rfl⟩)

/-- Settles O42, by the cases of each instruction: an error keeps PHASE, and the guards decide which error. -/
theorem phaseFollowsTheLifecycle : Obligations.PhaseFollowsTheLifecycle := by
  intro i s t h
  rcases exec_cases h with ⟨rfl, rfl⟩ | ⟨rfl, rfl⟩ | ⟨_, _, rfl, long, rfl⟩ | ⟨_, _, rfl, legal, final, rfl⟩ |
    ⟨_, _, rfl, legal, notFinal, rfl⟩ | ⟨rfl, final, rfl⟩ | ⟨rfl, -, rfl⟩ | ⟨_, rfl, -, -, rfl⟩ |
    ⟨_, _, rfl, -, rfl⟩
  · rfl
  · rfl
  · simp [Nat.not_le.mpr long]
  · simp [legal, final]
  · simp [legal, notFinal]
  · simp [final]
  · rfl
  · rfl
  · rfl

end Sys2Proof.Machine
end

section
/-! PROOFS. The register map of the read port and the fields of STATUS. -/

namespace Sys2Proof.Machine

/-! ## The register map (10_state.md R30 to R35) -/

theorem registerWord_status (s : State) : registerWord 0x00 s = statusWord s := rfl

theorem registerWord_blocksLo (s : State) : registerWord 0x01 s = s.blocks.extractLsb' 0 32 := rfl

theorem registerWord_blocksHi (s : State) : registerWord 0x02 s = s.blocks.extractLsb' 32 32 := rfl

theorem registerWord_info (s : State) : registerWord 0x03 s = 0x00002040 := rfl

/-- Above INFO the address alone decides between a digest word and a reserved address. -/
theorem registerWord_of_gt_info {a : U8} (above : 0x03 < a.toNat) (s : State) :
    registerWord a s =
      if at8 : 0x08 ≤ a.toNat ∧ a.toNat ≤ 0x0F then digestWord ⟨a.toNat - 0x08, by omega⟩ s else 0 := by
  have ne {n : U8} (low : n.toNat ≤ 0x03) : a ≠ n := fun e => absurd low (by rw [← e]; omega)
  rw [registerWord, if_neg (ne (by decide)), if_neg (ne (by decide)), if_neg (ne (by decide)),
    if_neg (ne (by decide))]

theorem registerWord_digest {a : U8} {i : Fin 8} (at_ : a.toNat = 0x08 + i.val) (s : State) :
    registerWord a s = digestWord i s := by
  rw [registerWord_of_gt_info (by omega), dif_pos (by omega)]
  exact congrArg (digestWord · s) (Fin.ext (by simp [at_]))

theorem registerWord_reserved {a : U8} (reserved : 0x04 ≤ a.toNat ∧ a.toNat ≤ 0x07 ∨ 0x10 ≤ a.toNat) (s : State) :
    registerWord a s = 0 := by
  rw [registerWord_of_gt_info (by omega), dif_neg (by omega)]

/-- Settles O35: an idle read delivers the word the register map has at the address. -/
theorem idleReadReturnsTheMappedRegister : Obligations.IdleReadReturnsTheMappedRegister := by
  intro s a idle released
  refine ⟨registerWord a s, exec_read_of_idle a idle released, ?_, ?_, ?_, ?_, ?_, ?_⟩
  · rintro rfl
    exact registerWord_status s
  · rintro rfl
    exact registerWord_blocksLo s
  · rintro rfl
    exact registerWord_blocksHi s
  · rintro rfl
    exact registerWord_info s
  · intro i at_
    exact registerWord_digest at_ s
  · intro reserved
    exact registerWord_reserved reserved s

/-! ## The fields of STATUS (10_state.md R31)

STATUS is one long concatenation. The lemmas about extracting from `x ++ y` match while its width is written as a sum,
so the sums are kept (`-Nat.reduceAdd`); a single bit is looked up before `simp` turns it into an index. -/

section
open BitVec (extractLsb'_append_eq_of_le extractLsb'_append_eq_of_add_le)

theorem statusWord_phase (s : State) : (statusWord s).extractLsb' 0 2 = s.phase.bits := by
  simp (disch := decide) [-Nat.reduceAdd, statusWord, extractLsb'_append_eq_of_add_le]

theorem statusWord_busy (s : State) : (statusWord s).getLsbD 2 = s.busy := by
  simp only [statusWord, BitVec.getLsbD_append]
  simp

theorem statusWord_reserved_7_3 (s : State) : (statusWord s).extractLsb' 3 5 = 0 := by
  simp (disch := decide) [-Nat.reduceAdd, statusWord, extractLsb'_append_eq_of_le, extractLsb'_append_eq_of_add_le]

theorem statusWord_errOpc (s : State) : (statusWord s).getLsbD 8 = s.errOpc := by
  simp only [statusWord, BitVec.getLsbD_append]
  simp

theorem statusWord_errArg (s : State) : (statusWord s).getLsbD 9 = s.errArg := by
  simp only [statusWord, BitVec.getLsbD_append]
  simp

theorem statusWord_errState (s : State) : (statusWord s).getLsbD 10 = s.errState := by
  simp only [statusWord, BitVec.getLsbD_append]
  simp

theorem statusWord_reserved_15_11 (s : State) : (statusWord s).extractLsb' 11 5 = 0 := by
  simp (disch := decide) [-Nat.reduceAdd, statusWord, extractLsb'_append_eq_of_le, extractLsb'_append_eq_of_add_le]

theorem statusWord_bufLen (s : State) : (statusWord s).extractLsb' 16 6 = s.bufLen := by
  simp (disch := decide) [-Nat.reduceAdd, statusWord, extractLsb'_append_eq_of_le, extractLsb'_append_eq_of_add_le]

theorem statusWord_reserved_31_22 (s : State) : (statusWord s).extractLsb' 22 10 = 0 := by
  simp (disch := decide) [-Nat.reduceAdd, statusWord, extractLsb'_append_eq_of_le]

end

/-- Settles O36, field by field. -/
theorem statusFieldsStandWhereTheMapSays : Obligations.StatusFieldsStandWhereTheMapSays := by
  intro s
  refine ⟨?_, statusWord_busy s, statusWord_reserved_7_3 s, statusWord_errOpc s, statusWord_errArg s,
    statusWord_errState s, statusWord_reserved_15_11 s, statusWord_bufLen s, statusWord_reserved_31_22 s⟩
  rw [statusWord_phase]
  cases s.phase <;> rfl

end Sys2Proof.Machine
end

section
/-! PROOFS. The command port takes one word at a time, in order (20_memory.md R65, 70_reset_and_hazards.md R234, R235). -/

namespace Sys2Proof.Machine

/-! ## Every command word completes -/

/-- Every instruction has a next state (60_exceptions.md R215). -/
theorem exec_next (i : Instr) (s : State) : ∃ t, exec i s = .next t := by
  cases i with
  | init => exact ⟨_, rfl⟩
  | clrErr => exact ⟨_, rfl⟩
  | append len data => rcases execAppend_cases len data s with ⟨-, e⟩ | ⟨-, -, e⟩ | ⟨-, -, e⟩ <;> exact ⟨_, e⟩
  | finalize => rcases execFinalize_cases s with ⟨-, e⟩ | ⟨-, e⟩ <;> exact ⟨_, e⟩
  | read a => rcases execRead_cases a s with ⟨-, -, e⟩ | ⟨-, _, e⟩ <;> exact ⟨_, e⟩

/-- Every command word completes, legal or not (70_reset_and_hazards.md R235). -/
theorem run_command_next (cw : U64) (s : State) : ∃ t, perform (.run (.command cw)) s = .next t := by
  cases d : decodeCommand cw with
  | ok i =>
    rw [perform_run_command_ok d]
    exact exec_next i s
  | error why => exact ⟨_, perform_run_command_error d s⟩

theorem completeAll_cons {cw : U64} {s t : State} (h : perform (.run (.command cw)) s = .next t) (cws : List U64) :
    completeAll (cw :: cws) s = completeAll cws t := by
  simp only [completeAll, h]

/-! ## The steps of a core whose host only offers words and pauses

The core's state is written `withPorts PENDING script BUSY s`: a completion is then the effect the word has on `s`. -/

section
variable {s : State} (released : s.resetLine = false)
include released

/-- An idle core accepts the offered word (70_reset_and_hazards.md R234). -/
theorem step_accept (p cw : U64) (events : List Event) :
    step (withPorts p (.offer cw :: events) false s) = .next (withPorts cw events true s) := by
  rw [step_of_schedule (a := .accept cw) (rest := events) (by simp [schedule, withPorts, released])]
  rfl

/-- An idle core lets a pause pass. -/
theorem step_pause (p : U64) (events : List Event) :
    step (withPorts p (.pause :: events) false s) = .next (withPorts p events false s) := by
  rw [step_of_schedule (a := .idle) (rest := events) (by simp [schedule, withPorts, released])]
  rfl

variable {t : State} {cw : U64} (ran : perform (.run (.command cw)) s = .next t)
include ran

/-- A busy core completes its word while the host holds the next one (R234). -/
theorem step_complete_of_offer (held : U64) (events : List Event) :
    step (withPorts cw (.offer held :: events) true s) = .next (withPorts cw (.offer held :: events) false t) := by
  rw [step_of_schedule (a := .run (.command cw)) (rest := .offer held :: events)
    (by simp [schedule, withPorts, released])]
  exact run_command_withPorts ran ..

/-- A busy core completes its word during a pause. -/
theorem step_complete_of_pause (events : List Event) :
    step (withPorts cw (.pause :: events) true s) = .next (withPorts cw events false t) := by
  rw [step_of_schedule (a := .run (.command cw)) (rest := events) (by simp [schedule, withPorts, released])]
  exact run_command_withPorts ran ..

end

/-! ## Runs of offered words -/

/-- A core busy with one word, offered the others: the run ends where completing all of them ends, PENDING apart. -/
theorem runFor_offered_words (cw : U64) (cws : List U64) (rest : List Event) {s : State}
    (released : s.resetLine = false) :
    ∃ k u p, completeAll (cw :: cws) s = .next u ∧ u.busy = false ∧
      runFor k (withPorts cw (cws.map .offer ++ .pause :: rest) true s) = .next (withPorts p rest false u) := by
  induction cws generalizing cw s with
  | nil =>
    obtain ⟨t, ran⟩ := run_command_next cw s
    exact ⟨1, t, cw, completeAll_cons ran [], (run_command_frame ran).1,
      runFor_succ (step_complete_of_pause released ran rest) 0⟩
  | cons cw' cws ih =>
    obtain ⟨t, ran⟩ := run_command_next cw s
    obtain ⟨-, -, -, reset⟩ := run_command_frame ran
    have released' : t.resetLine = false := reset.trans released
    obtain ⟨k, u, p, all, idle, run⟩ := ih cw' released'
    refine ⟨k + 2, u, p, (completeAll_cons ran _).trans all, idle, ?_⟩
    calc runFor (k + 2) (withPorts cw (.offer cw' :: (cws.map .offer ++ .pause :: rest)) true s)
      _ = runFor (k + 1) (withPorts cw (.offer cw' :: (cws.map .offer ++ .pause :: rest)) false t) :=
        runFor_succ (step_complete_of_offer released ran _ _) _
      _ = runFor k (withPorts cw' (cws.map .offer ++ .pause :: rest) true t) :=
        runFor_succ (step_accept released' ..) _
      _ = .next (withPorts p rest false u) := run

/-- The same from an idle core, which first accepts a word or, with none offered, lets the pause pass. -/
theorem runFor_offered_words_of_idle (p : U64) (cws : List U64) (rest : List Event) {s : State}
    (idle : s.busy = false) (released : s.resetLine = false) :
    ∃ k u q, completeAll cws s = .next u ∧ u.busy = false ∧
      runFor k (withPorts p (cws.map .offer ++ .pause :: rest) false s) = .next (withPorts q rest false u) := by
  cases cws with
  | nil => exact ⟨1, s, p, rfl, idle, runFor_succ (step_pause released p rest) 0⟩
  | cons cw cws =>
    obtain ⟨k, u, q, all, idle', run⟩ := runFor_offered_words cw cws rest released
    exact ⟨k + 1, u, q, all, idle', (runFor_succ (step_accept released p cw _) k).trans run⟩

/-- Settles O15, by induction over the offered words: a completion and an acceptance take the core from busy with one
word to busy with the next, and a word's effect does not depend on what the ports hold. -/
theorem commandsTakeEffectInOrder : Obligations.CommandsTakeEffectInOrder := by
  intro s cws rest idle released script
  obtain ⟨k, u, q, all, idle', run⟩ := runFor_offered_words_of_idle s.pending cws rest idle released
  have start : withPorts s.pending (cws.map .offer ++ .pause :: rest) false s = s := by
    rw [← script, ← idle]; rfl
  rw [start] at run
  exact ⟨k, u, _, all, run, by rw [withPorts, ← idle'], rfl⟩

end Sys2Proof.Machine
end

section
/-! PROOFS. The encoding (30_encoding.md R81 to R93): decoder and encoder are inverse to each other, and the decoder is
the match and mask list. -/

namespace Sys2Proof

/-! ## The round trip (R81, R83) -/

/-- Settles O5: each field the decoder tests or takes is the one the encoder put there. -/
theorem decodeGivesBackEveryEncodedInstruction : Obligations.DecodeGivesBackEveryEncodedInstruction := by
  intro i
  cases i with
  | init => simp [encode, decode, decodeCommand, decodeBare]
  | append len data => simp [encode, decode, decodeCommand, decodeAppend]
  | finalize => simp [encode, decode, decodeCommand, decodeBare]
  | clrErr => simp [encode, decode, decodeCommand, decodeBare]
  | read a => rfl

/-- A word whose RSV is zero is put together again from its other fields. -/
theorem commandWord_fields {cw : U64} (rsv : fieldRsv cw = 0) :
    commandWord (fieldData cw) (fieldLen cw) (fieldOp cw) = cw :=
  calc commandWord (fieldData cw) (fieldLen cw) (fieldOp cw)
    _ = fieldData cw ++ fieldRsv cw ++ fieldLen cw ++ fieldOp cw := by rw [rsv]; rfl
    _ = cw := by
      apply BitVec.eq_of_getLsbD_eq
      intro i lt
      simp only [fieldData, fieldRsv, fieldLen, fieldOp, BitVec.getLsbD_append, BitVec.getLsbD_extractLsb']
      split_ifs <;> grind

/-- A word with no operand bits is the command word of its OP. -/
theorem commandWord_of_fieldAboveOp_eq_zero {cw : U64} (bare : fieldAboveOp cw = 0) :
    commandWord 0 0 (fieldOp cw) = cw := by
  conv_rhs => rw [Machine.eq_fieldOp_of_fieldAboveOp_eq_zero bare]
  rfl

/-- Settles O6: a word that decodes has only its instruction's fields, so it is put together from them. -/
theorem everyDecodedWordIsAnEncoding : Obligations.EveryDecodedWordIsAnEncoding := by
  intro w i decoded
  cases w with
  | readAddress a => cases decoded; rfl
  | command cw =>
    rcases Machine.decodeCommand_cases decoded with
      ⟨op, rsv, rfl⟩ | ⟨op, bare, rfl⟩ | ⟨op, bare, rfl⟩ | ⟨op, bare, rfl⟩
    · rw [encode, ← op, commandWord_fields rsv]
    all_goals rw [encode, ← op, commandWord_of_fieldAboveOp_eq_zero bare]

/-- A command word decodes to an instruction exactly when it is the instruction's spelling. -/
theorem decodeCommand_eq_ok_iff (cw : U64) (i : Instr) : decodeCommand cw = .ok i ↔ encode i = .command cw := by
  refine ⟨everyDecodedWordIsAnEncoding (.command cw) i, fun spelled => ?_⟩
  have := decodeGivesBackEveryEncodedInstruction i
  rwa [spelled] at this

/-! ## The match and mask list (R83) -/

/-- INIT, FINALIZE and CLR_ERR match under the full mask: the word is the row's. -/
theorem and_fullMask (cw : U64) : cw &&& 0xFFFFFFFFFFFFFFFF = cw := BitVec.and_allOnes

/-- APPEND's mask keeps OP and RSV. -/
theorem and_appendMask (cw : U64) : cw &&& 0x00000000FFFFFF8F = 0#32 ++ fieldRsv cw ++ 0#3 ++ fieldOp cw := by
  apply BitVec.eq_of_getLsbD_eq
  intro i lt
  simp only [fieldRsv, fieldOp, BitVec.getLsbD_and, BitVec.getLsbD_append, BitVec.getLsbD_extractLsb']
  interval_cases i <;> simp

/-- A word matches APPEND's row exactly when its OP is APPEND's and its RSV is zero. -/
theorem matches_append_iff (cw : U64) :
    cw &&& 0x00000000FFFFFF8F = 0x0000000000000002 ↔ fieldOp cw = 0x2 ∧ fieldRsv cw = 0 := by
  constructor
  · intro row
    have op : fieldOp (cw &&& 0x00000000FFFFFF8F) = fieldOp cw :=
      BitVec.extractLsb'_and.trans BitVec.and_allOnes
    have rsv : fieldRsv (cw &&& 0x00000000FFFFFF8F) = fieldRsv cw :=
      BitVec.extractLsb'_and.trans BitVec.and_allOnes
    rw [← op, ← rsv, row]
    decide
  · rintro ⟨op, rsv⟩
    rw [and_appendMask, op, rsv]
    rfl

theorem decodeCommand_append_iff (cw : U64) :
    decodeCommand cw = .ok (.append (fieldLen cw) (fieldData cw)) ↔ cw &&& 0x00000000FFFFFF8F = 0x0000000000000002 := by
  rw [matches_append_iff]
  constructor
  · intro decoded
    simpa using Machine.decodeCommand_cases decoded
  · rintro ⟨op, rsv⟩
    rw [decodeCommand, if_pos op, decodeAppend, if_pos rsv]

/-- The commands with no operand match one word each. -/
theorem decodeCommand_bare_iff {i : Instr} {word : U64} (spelled : encode i = .command word) (cw : U64) :
    decodeCommand cw = .ok i ↔ cw &&& 0xFFFFFFFFFFFFFFFF = word := by
  rw [decodeCommand_eq_ok_iff, spelled, and_fullMask, PortWord.command.injEq, eq_comm]

/-- The rows one by one: a word is well formed exactly when it matches one. -/
theorem commandWordWellFormed_iff (cw : U64) : commandWordWellFormed cw = true ↔
    cw &&& 0xFFFFFFFFFFFFFFFF = 0x0000000000000001 ∨ cw &&& 0x00000000FFFFFF8F = 0x0000000000000002 ∨
    cw &&& 0xFFFFFFFFFFFFFFFF = 0x0000000000000003 ∨ cw &&& 0xFFFFFFFFFFFFFFFF = 0x0000000000000004 := by
  simp [commandWordWellFormed, matchRows, MatchRow.accepts]

theorem encode_wellFormed (i : Instr) : (encode i).wellFormed = true := by
  cases i with
  | init => exact Laws.Spelling.init
  | append len data => exact Laws.Spelling.append len data
  | finalize => exact Laws.Spelling.finalize
  | clrErr => exact Laws.Spelling.clrErr
  | read a => exact Laws.Spelling.read a

/-- A word is illegal exactly when it matches no row. -/
theorem decodeCommand_error_iff (cw : U64) :
    (∃ why, decodeCommand cw = .error why) ↔ commandWordWellFormed cw = false := by
  cases d : decodeCommand cw with
  | ok i =>
    have formed : commandWordWellFormed cw = true := by
      have := encode_wellFormed i
      rwa [(decodeCommand_eq_ok_iff cw i).mp d] at this
    simp [formed]
  | error why =>
    have illegal (i : Instr) : decodeCommand cw ≠ .ok i := by simp [d]
    have unformed : ¬ commandWordWellFormed cw = true := by
      rw [commandWordWellFormed_iff]
      rintro (row | row | row | row)
      · exact illegal .init ((decodeCommand_bare_iff rfl cw).mpr row)
      · exact illegal _ ((decodeCommand_append_iff cw).mpr row)
      · exact illegal .finalize ((decodeCommand_bare_iff rfl cw).mpr row)
      · exact illegal .clrErr ((decodeCommand_bare_iff rfl cw).mpr row)
    simp [unformed]

/-- A row accepts only words of its own OP: every mask keeps the four OP bits. -/
theorem fieldOp_of_accepts {r : MatchRow} (row : r ∈ matchRows) {cw : U64} (accepted : r.accepts cw = true) :
    fieldOp r.bits = fieldOp cw := by
  have keepsOp : ∀ r ∈ matchRows, fieldOp r.mask = 0xF := by decide
  calc fieldOp r.bits
    _ = fieldOp (cw &&& r.mask) := by rw [beq_iff_eq.mp accepted]
    _ = fieldOp cw &&& fieldOp r.mask := BitVec.extractLsb'_and
    _ = fieldOp cw &&& BitVec.allOnes 4 := by rw [keepsOp r row]; rfl
    _ = fieldOp cw := BitVec.and_allOnes

/-- No two rows have the same OP, so no word matches two. -/
theorem matchRows_disjoint (cw : U64) : (matchRows.filter (·.accepts cw)).length ≤ 1 := by
  have onePerOp : ∀ op : BitVec 4, matchRows.countP (fieldOp ·.bits == op) ≤ 1 := by decide
  calc (matchRows.filter (·.accepts cw)).length
    _ = matchRows.countP (·.accepts cw) := List.countP_eq_length_filter.symm
    _ ≤ matchRows.countP (fieldOp ·.bits == fieldOp cw) :=
      List.countP_mono_left fun _ row accepted => beq_iff_eq.mpr (fieldOp_of_accepts row accepted)
    _ ≤ 1 := onePerOp (fieldOp cw)

/-- Settles O7, row by row: a bare command's one spelling, APPEND's OP and RSV under its mask, and the OPs apart. -/
theorem decoderAgreesWithMatchAndMask : Obligations.DecoderAgreesWithMatchAndMask := fun cw =>
  ⟨decodeCommand_bare_iff rfl cw, decodeCommand_append_iff cw, decodeCommand_bare_iff rfl cw,
    decodeCommand_bare_iff rfl cw, decodeCommand_error_iff cw, matchRows_disjoint cw⟩

/-- Settles O4: the words of the table, each decoded. -/
theorem specExampleWordsDecode : Obligations.SpecExampleWordsDecode := by
  unfold Obligations.SpecExampleWordsDecode
  decide

end Sys2Proof

namespace Sys2Proof.Machine

/-! ## Illegal words at their completion (R86) -/

/-- The three kinds of illegal word, from the bits. -/
theorem decodeCommand_error_of_illegal {cw : U64}
    (illegal : fieldOp cw ∉ [0x1, 0x2, 0x3, 0x4] ∨ (fieldOp cw ∈ [0x1, 0x3, 0x4] ∧ fieldAboveOp cw ≠ 0) ∨
      (fieldOp cw = 0x2 ∧ fieldRsv cw ≠ 0)) : ∃ why, decodeCommand cw = .error why := by
  cases d : decodeCommand cw with
  | error why => exact ⟨why, rfl⟩
  | ok i =>
    rcases decodeCommand_cases d with ⟨op, zero, -⟩ | ⟨op, zero, -⟩ | ⟨op, zero, -⟩ | ⟨op, zero, -⟩ <;>
      simp [op, zero] at illegal

/-- Settles O14: no word of the three kinds decodes, and a word that does not decode raises ERR_OPC. -/
theorem illegalWordSetsErrOpcAlone : Obligations.IllegalWordSetsErrOpcAlone := by
  intro s chosen illegal
  obtain ⟨why, refused⟩ := decodeCommand_error_of_illegal illegal
  rw [step, chosen, perform_run_command_error refused]
  rfl

/-! ## Reads (R87) -/

/-- A read of STATUS while busy delivers a word whose BUSY bit is set (70_reset_and_hazards.md R236). -/
theorem exec_read_status_of_busy {s : State} (busy : s.busy = true) (released : s.resetLine = false) :
    exec (.read 0x00) s = .next (countDraw (deliver (busyStatusWord (Config.freeRead s.draws)) s)) := by
  rw [exec, execRead, if_neg (by simp [released]), if_pos busy]
  rfl

theorem busyStatusWord_busy (free : U32) : (busyStatusWord free).getLsbD 2 = true := by
  simp [busyStatusWord]

/-- Settles O37: a read delivers one word and at most counts a draw; only STATUS while busy fixes a bit of the word. -/
theorem readAlwaysCompletesAndChangesNoState : Obligations.ReadAlwaysCompletesAndChangesNoState := by
  intro s a
  by_cases status : s.busy = true ∧ s.resetLine = false ∧ a = 0x00
  · obtain ⟨busy, released, rfl⟩ := status
    exact ⟨_, s.draws + 1, exec_read_status_of_busy busy released, fun _ _ _ => busyStatusWord_busy _⟩
  · have free {w : U32} : s.busy = true → s.resetLine = false → a = 0x00 → w.getLsbD 2 = true :=
      fun busy released at_ => absurd ⟨busy, released, at_⟩ status
    rcases execRead_cases a s with ⟨-, -, e⟩ | ⟨-, w, e⟩
    · exact ⟨_, s.draws, e, free⟩
    · exact ⟨w, s.draws + 1, e, free⟩

end Sys2Proof.Machine
end

section
/-! PROOFS. The pseudo-command UPDATE (30_encoding.md R90): it expands to APPENDs that carry the message. -/

namespace Sys2Proof.Machine

/-! ## The lanes of an APPEND's DATA (R84) -/

section
open BitVec (extractLsb'_append_eq_of_le extractLsb'_append_eq_of_add_le)

theorem byteLanes_four (b0 b1 b2 b3 : U8) : byteLanes (b0 ++ b1 ++ b2 ++ b3) = [b0, b1, b2, b3] := by
  simp (disch := decide) [-Nat.reduceAdd, byteLanes, extractLsb'_append_eq_of_le, extractLsb'_append_eq_of_add_le]

theorem appendBytes_four (b0 b1 b2 b3 : U8) : appendBytes 4 (b0 ++ b1 ++ b2 ++ b3) = [b0, b1, b2, b3] := by
  rw [appendBytes, byteLanes_four]; rfl

theorem appendBytes_three (b0 b1 b2 : U8) : appendBytes 3 (b0 ++ b1 ++ b2 ++ 0#8) = [b0, b1, b2] := by
  rw [appendBytes, byteLanes_four]; rfl

theorem appendBytes_two (b0 b1 : U8) : appendBytes 2 (b0 ++ b1 ++ 0#16) = [b0, b1] := by
  simp (disch := decide) [-Nat.reduceAdd, appendBytes, byteLanes, extractLsb'_append_eq_of_le,
    extractLsb'_append_eq_of_add_le]

theorem appendBytes_one (b0 : U8) : appendBytes 1 (b0 ++ 0#24) = [b0] := by
  simp (disch := decide) [-Nat.reduceAdd, appendBytes, byteLanes, extractLsb'_append_eq_of_le,
    extractLsb'_append_eq_of_add_le]

end

/-! ## The expansion (R90) -/

theorem messageBytes_append {len : BitVec 3} (legal : len.toNat ≤ 4) (data : U32) :
    messageBytes (.append len data) = appendBytes len data := if_pos legal

@[simp] theorem messageOf_nil : messageOf [] = [] := rfl

@[simp] theorem messageOf_cons (i : Instr) (is : List Instr) : messageOf (i :: is) = messageBytes i ++ messageOf is := rfl

theorem messageOf_appendCommands (m : List U8) : messageOf (appendCommands m) = m := by
  induction m using appendCommands.induct with
  | case1 b0 b1 b2 b3 rest ih =>
    rw [appendCommands, messageOf_cons, ih, messageBytes_append (by decide), appendBytes_four]; rfl
  | case2 b0 b1 b2 => rw [appendCommands, messageOf_cons, messageBytes_append (by decide), appendBytes_three]; rfl
  | case3 b0 b1 => rw [appendCommands, messageOf_cons, messageBytes_append (by decide), appendBytes_two]; rfl
  | case4 b0 => rw [appendCommands, messageOf_cons, messageBytes_append (by decide), appendBytes_one]; rfl
  | case5 => rfl

theorem isGoodAppend_of_mem_appendCommands {m : List U8} {i : Instr} (mem : i ∈ appendCommands m) :
    isGoodAppend i = true := by
  induction m using appendCommands.induct with
  | case1 b0 b1 b2 b3 rest ih =>
    rcases List.mem_cons.mp mem with rfl | later
    · rfl
    · exact ih later
  | case2 | case3 | case4 => cases List.mem_singleton.mp mem; rfl
  | case5 => cases mem

/-- Only the last command can carry fewer than four bytes. -/
theorem length_messageBytes_of_mem_dropLast {m : List U8} {i : Instr} (mem : i ∈ (appendCommands m).dropLast) :
    (messageBytes i).length = 4 := by
  induction m using appendCommands.induct with
  | case1 b0 b1 b2 b3 rest ih =>
    cases e : appendCommands rest with
    | nil => simp [appendCommands, e] at mem
    | cons j js =>
      rw [appendCommands, e, List.dropLast_cons_cons, ← e] at mem
      rcases List.mem_cons.mp mem with rfl | later
      · rfl
      · exact ih later
  | case2 | case3 | case4 | case5 => cases mem

theorem appendCommands_ne_nil {m : List U8} (nonempty : m ≠ []) : appendCommands m ≠ [] := by
  intro empty
  have carried := messageOf_appendCommands m
  rw [empty] at carried
  exact nonempty carried.symm

theorem updateCommands_of_ne_nil {m : List U8} (nonempty : m ≠ []) : updateCommands m = appendCommands m :=
  if_neg nonempty

/-- Settles O46, by induction over the message four bytes at a time; no bytes are APPEND 0. -/
theorem updateExpandsToTheBytesOfTheMessage : Obligations.UpdateExpandsToTheBytesOfTheMessage := by
  intro m
  rcases eq_or_ne m [] with rfl | nonempty
  · decide
  · rw [updateCommands_of_ne_nil nonempty]
    exact ⟨messageOf_appendCommands m, appendCommands_ne_nil nonempty, fun _ => isGoodAppend_of_mem_appendCommands,
      fun _ => length_messageBytes_of_mem_dropLast⟩

end Sys2Proof.Machine
end

section
/-! PROOFS. The pseudo-command HASH (30_encoding.md R91) from end to end: what its commands leave in the core, how the
host's script makes the core run them, and what the reads of the digest return. -/

namespace Sys2Proof.Machine

/-! ## Commands one after another -/

theorem execAll_cons {i : Instr} {s t : State} (ran : exec i s = .next t) (is : List Instr) :
    execAll (i :: is) s = execAll is t := by
  simp only [execAll, ran]

theorem execAll_append {is : List Instr} {s t : State} (ran : execAll is s = .next t) (js : List Instr) :
    execAll (is ++ js) s = execAll js t := by
  induction is generalizing s with
  | nil => cases ran; rfl
  | cons i is ih =>
    obtain ⟨u, first⟩ := exec_next i s
    rw [execAll_cons first] at ran
    rw [List.cons_append, execAll_cons first, ih ran]

/-! ## A list of good APPENDs pushes its message (41_accumulator.md R121, R127) -/

/-- The state in another phase and with another BUSY, which is all an APPEND changes besides its pushes. -/
def withPhase (p : Phase) (busy : Bool) (s : State) : State := { s with phase := p, busy := busy }

theorem push_withPhase (b : U8) (p : Phase) (y : Bool) (s : State) :
    push b (withPhase p y s) = withPhase p y (push b s) := by
  by_cases full : s.bufLen = 63#6 <;> simp [push, withPhase, blockReady, full]

theorem pushAll_withPhase (bs : List U8) (p : Phase) (y : Bool) (s : State) :
    pushAll bs (withPhase p y s) = withPhase p y (pushAll bs s) := by
  induction bs generalizing s with
  | nil => rfl
  | cons b bs ih => rw [pushAll_cons, push_withPhase, ih, pushAll_cons]

theorem exec_goodAppend {i : Instr} (good : isGoodAppend i = true) {s : State} (notFinal : s.phase ≠ .finalized) :
    exec i s = .next (withPhase .accumulating false (pushAll (messageBytes i) s)) := by
  cases i with
  | append len data =>
    have legal : len.toNat ≤ 4 := of_decide_eq_true good
    rw [exec_append_of_open legal data notFinal, messageBytes_append legal]
    rfl
  | init | finalize | clrErr | read => cases good

/-- Good APPENDs push the bytes of their message in order and change nothing else but PHASE and BUSY. -/
theorem execAll_goodAppends {is : List Instr} (good : ∀ i ∈ is, isGoodAppend i = true) {s : State}
    (notFinal : s.phase ≠ .finalized) : ∃ p busy, p ≠ .finalized ∧
      execAll is s = .next (withPhase p busy (pushAll (messageOf is) s)) := by
  induction is generalizing s with
  | nil => exact ⟨s.phase, s.busy, notFinal, rfl⟩
  | cons i is ih =>
    obtain ⟨goodFirst, goodRest⟩ := List.forall_mem_cons.mp good
    obtain ⟨p, busy, open_, ran⟩ :=
      ih goodRest (s := withPhase .accumulating false (pushAll (messageBytes i) s)) (fun c => nomatch c)
    refine ⟨p, busy, open_, ?_⟩
    rw [execAll_cons (exec_goodAppend goodFirst notFinal), ran, pushAll_withPhase, messageOf_cons, pushAll_append]
    rfl

/-! ## FINALIZE pads the message (43_finalize.md R172, R173) -/

/-- `BLOCKS` and `BUF_LEN` count the message's bits modulo 2^64 (R172). -/
theorem Accumulates.messageLength_eq {m : List U8} {s : State} (acc : Accumulates m s) :
    messageLength s.blocks s.bufLen = BitVec.ofNat 64 (8 * m.length) := by
  apply BitVec.eq_of_toNat_eq
  have := acc.bufLen
  simp only [messageLength, acc.blocks, BitVec.toNat_add, BitVec.toNat_mul, BitVec.toNat_setWidth, BitVec.toNat_ofNat]
  omega

theorem Accumulates.paddingBytes_eq {m : List U8} {s : State} (acc : Accumulates m s) :
    paddingBytes s = padding m.length := by
  rw [paddingBytes, padding, acc.messageLength_eq, acc.bufLen]

/-- FINALIZE's pushes take the message to its padded form; its `H` is then `sha256 m` (R177). -/
theorem Accumulates.padded {m : List U8} {s : State} (acc : Accumulates m s) :
    Accumulates (padded m) (Machine.pushAll (paddingBytes s) s) := by
  rw [acc.paddingBytes_eq]
  exact acc.pushAll (padding m.length)

/-! ## The commands of HASH -/

theorem messageOf_updateCommands (m : List U8) : messageOf (updateCommands m) = m :=
  (updateExpandsToTheBytesOfTheMessage m).1

theorem isGoodAppend_of_mem_updateCommands (m : List U8) : ∀ i ∈ updateCommands m, isGoodAppend i = true :=
  (updateExpandsToTheBytesOfTheMessage m).2.2.1

/-- What a finished HASH has left: the digest, the phase that shows it, no error bit. -/
structure HoldsDigest (m : List U8) (s : State) : Prop where
  h : s.h = sha256 m
  phase : s.phase = .finalized
  errOpc : s.errOpc = false
  errArg : s.errArg = false
  errState : s.errState = false

/-- The commands of HASH run from any state to the digest, and return nothing to the host on the way. -/
theorem execAll_hashCommands (m : List U8) (s : State) :
    ∃ t, execAll (hashCommands m) s = .next t ∧ HoldsDigest m t ∧ t.received = s.received ∧
      t.resetLine = s.resetLine := by
  obtain ⟨fresh, hfresh⟩ : ∃ fresh, fresh = complete (clearErrors (startFresh s)) := ⟨_, rfl⟩
  have ranInit : exec .init s = .next fresh := by rw [hfresh]; rfl
  have accFresh : Accumulates [] fresh := accumulates_nil (by simp [hfresh]) (by simp [hfresh]) (by simp [hfresh])
  obtain ⟨p, busy, notFinal, ranUpdate⟩ :=
    execAll_goodAppends (isGoodAppend_of_mem_updateCommands m) (s := fresh) (by simp [hfresh])
  rw [messageOf_updateCommands] at ranUpdate
  obtain ⟨full, hfull⟩ : ∃ full, full = withPhase p busy (pushAll m fresh) := ⟨_, rfl⟩
  rw [← hfull] at ranUpdate
  have accFull : Accumulates m full := by
    rw [hfull]
    exact (accFresh.pushAll m).congr rfl rfl rfl rfl
  have notFinalFull : full.phase ≠ .finalized := by rw [hfull]; exact notFinal
  refine ⟨complete (countDraw (forgetBuf { pushAll (paddingBytes full) full with phase := .finalized })), ?_,
    ⟨accFull.padded.h, rfl, ?_, ?_, ?_⟩, ?_, ?_⟩
  · rw [hashCommands, List.cons_append, execAll_cons ranInit, execAll_append ranUpdate,
      execAll_cons (exec_finalize_of_open notFinalFull)]
    rfl
  all_goals simp [hfull, hfresh, withPhase]

theorem isCommand_of_isGoodAppend {i : Instr} (good : isGoodAppend i = true) : isCommand i = true := by
  cases i with
  | append len data => rfl
  | init | finalize | clrErr | read => cases good

theorem isCommand_of_mem_hashCommands (m : List U8) : ∀ i ∈ hashCommands m, isCommand i = true := by
  intro i mem
  simp only [hashCommands, List.mem_append, List.mem_cons, List.not_mem_nil, or_false] at mem
  rcases mem with (rfl | update) | rfl
  · rfl
  · exact isCommand_of_isGoodAppend (isGoodAppend_of_mem_updateCommands m i update)
  · rfl

/-! ## Commands as offered words -/

/-- A command is issued as one word on the command port, which completes as the command. -/
theorem issue_command {i : Instr} (command : isCommand i = true) :
    ∃ cw, issue i = .offer cw ∧ decodeCommand cw = .ok i := by
  cases i with
  | init | append | finalize | clrErr => exact ⟨_, rfl, (decodeCommand_eq_ok_iff _ _).mpr rfl⟩
  | read a => cases command

/-- The issued words of a list of commands complete as the commands take effect. -/
theorem issue_commands {is : List Instr} (commands : ∀ i ∈ is, isCommand i = true) :
    ∃ cws : List U64, is.map issue = cws.map .offer ∧ ∀ s, completeAll cws s = execAll is s := by
  induction is with
  | nil => exact ⟨[], rfl, fun _ => rfl⟩
  | cons i is ih =>
    obtain ⟨first, later⟩ := List.forall_mem_cons.mp commands
    obtain ⟨cw, issued, decoded⟩ := issue_command first
    obtain ⟨cws, offered, completes⟩ := ih later
    refine ⟨cw :: cws, by rw [List.map_cons, List.map_cons, issued, offered], fun s => ?_⟩
    obtain ⟨t, ran⟩ := exec_next i s
    rw [execAll_cons ran, completeAll_cons ((perform_run_command_ok decoded s).trans ran), completes]

/-! ## The reads of the digest -/

theorem step_read {s : State} {a : U8} {rest : List Event} (script : s.script = .read a :: rest) :
    step s = exec (.read a) (withScript rest s) := by
  rw [step_of_schedule (a := .run (.readAddress a)) (rest := rest) (by simp [schedule, script]), perform_run_read]

/-- Reads of an idle core return the registers of the one state (70_reset_and_hazards.md R237). -/
theorem runFor_reads (as : List U8) (rest : List Event) {s : State} (idle : s.busy = false)
    (released : s.resetLine = false) (script : s.script = as.map .read ++ rest) :
    runFor as.length s = .next { s with script := rest, received := s.received ++ as.map (registerWord · s) } := by
  induction as generalizing s with
  | nil => rw [← show s.script = rest from script]; simp
  | cons a as ih =>
    obtain ⟨u, hu⟩ : ∃ u, u = deliver (registerWord a s) (withScript (as.map .read ++ rest) s) := ⟨_, rfl⟩
    have first : step s = .next u := by
      rw [step_read script, exec_read_of_idle a (by simpa) (by simpa), hu]
      rfl
    have sameRegisters (b : U8) : registerWord b u = registerWord b s := by rw [hu]; rfl
    rw [List.length_cons, runFor_succ first, ih (by simpa [hu]) (by simpa [hu]) (by simp [hu])]
    simp only [sameRegisters]
    simp [hu, deliver, withScript]

/-- The address of DIGESTi (10_state.md R30). -/
def digestAddress (i : Fin 8) : U8 := BitVec.ofNat 8 (0x08 + i.val)

theorem digestReads_eq : digestReads = (List.ofFn digestAddress).map .read := rfl

theorem registerWord_digestAddress {s : State} (final : s.phase = .finalized) (i : Fin 8) :
    registerWord (digestAddress i) s = s.h[i.val] := by
  have at_ : (digestAddress i).toNat = 0x08 + i.val := by simp [digestAddress]; omega
  rw [registerWord_digest at_, digestWord, if_pos final]
  rfl

/-- The eight reads of a FINALIZED core return the eight words of `H` (10_state.md R34). -/
theorem registerWords_digest {s : State} (final : s.phase = .finalized) :
    (List.ofFn digestAddress).map (registerWord · s) = s.h.toList :=
  calc (List.ofFn digestAddress).map (registerWord · s)
    _ = List.ofFn fun i : Fin 8 => s.h[i.val] := by
      rw [List.map_ofFn]
      exact congrArg List.ofFn (funext (registerWord_digestAddress final))
    _ = s.h.toList := by rw [← Vector.toList_ofFn, Vector.ofFn_getElem]

/-- Settles O50: the offered words complete as the commands of HASH, which leave the digest of m; the pause lets the last
of them complete, and the eight reads then return the words of `H`. (The bound on m is not needed: `sha256` and the
core wrap the length alike, R172.) -/
theorem hashReadsBackTheDigest : Obligations.HashReadsBackTheDigest := by
  intro s m rest idle released script _
  obtain ⟨cws, offered, completes⟩ := issue_commands (isCommand_of_mem_hashCommands m)
  obtain ⟨t, ran, digest, received, reset⟩ := execAll_hashCommands m s
  have script' : s.script = cws.map .offer ++ .pause :: (digestReads ++ rest) := by
    rw [script, hashEvents, offered, List.append_assoc, List.cons_append]
  obtain ⟨k, u, v, completed, run, hv, idle'⟩ := commandsTakeEffectInOrder s cws _ idle released script'
  obtain rfl : u = t := by
    rw [completes, ran] at completed
    cases completed
    rfl
  have reads := runFor_reads (List.ofFn digestAddress) rest (s := v) idle'
    (by rw [hv]; exact reset.trans released) (by rw [hv, ← digestReads_eq])
  rw [registerWords_digest (by rw [hv]; exact digest.phase)] at reads
  refine ⟨k + 8, _, (runFor_add run 8).trans reads, rfl, idle', ?_, ?_, ?_, ?_, ?_⟩
  all_goals rw [hv]
  · simp [received, digest.h]
  · exact digest.phase
  · exact digest.errOpc
  · exact digest.errArg
  · exact digest.errState

end Sys2Proof.Machine
end

section
/-! PROOFS. The bitwise function unit (40_bitops.md): each function by the bits of its result, the shift and the
addition as arithmetic. -/

namespace Sys2Proof.Machine

/-! ## Rotation and shift (R100, R101) -/

/-- Below bit `32 - n` the result is the right shift's, from there on the left shift's. -/
theorem getLsbD_rotr (x : U32) {n i : Nat} (pos : 1 ≤ n) (le : n ≤ 31) (bit : i < 32) :
    (rotr x n).getLsbD i = x.getLsbD ((i + n) % 32) := by
  rw [rotr, BitVec.getLsbD_or, BitVec.getLsbD_ushiftRight, BitVec.getLsbD_shiftLeft]
  obtain inside | wraps := Nat.lt_or_ge (i + n) 32
  · have noLeft : i < 32 - n := by omega
    simp [Nat.mod_eq_of_lt inside, noLeft, Nat.add_comm n i]
  · have noRight : x.getLsbD (n + i) = false := BitVec.getLsbD_of_ge x _ (by omega)
    have fromLeft : ¬ i < 32 - n := by omega
    have index : (i + n) % 32 = i - (32 - n) := by omega
    simp [noRight, fromLeft, index, bit]

/-- Settles O16: the two shifts bring in the bits of the operand below and above bit `32 - n`. -/
theorem rotateRightMovesBits : Obligations.RotateRightMovesBits :=
  fun x _ _ pos le bit => getLsbD_rotr x pos le bit

/-- The bits that a right shift brings in are zero. -/
theorem getLsbD_shr (x : U32) (n i : Nat) :
    (shr x n).getLsbD i = if i + n < 32 then x.getLsbD (i + n) else false := by
  rw [shr, BitVec.getLsbD_ushiftRight, Nat.add_comm n i]
  split
  case isTrue => rfl
  case isFalse vacated => exact BitVec.getLsbD_of_ge x _ (Nat.not_lt.mp vacated)

theorem toNat_shr (x : U32) (n : Nat) : (shr x n).toNat = x.toNat / 2 ^ n := by
  rw [shr, BitVec.toNat_ushiftRight, Nat.shiftRight_eq_div_pow]

/-! ## Addition (R102) -/

theorem toNat_add32 (x y : U32) : (add32 x y).toNat = (x.toNat + y.toNat) % 2 ^ 32 := BitVec.toNat_add x y

theorem add32_assoc (x y z : U32) : add32 (add32 x y) z = add32 x (add32 y z) := BitVec.add_assoc x y z

/-- A running sum, started at any word, is the exact sum reduced once. -/
theorem toNat_foldl_add32 (xs : List U32) (start : U32) :
    (xs.foldl add32 start).toNat = (start.toNat + (xs.map BitVec.toNat).sum) % 2 ^ 32 := by
  induction xs generalizing start with
  | nil => simp [Nat.mod_eq_of_lt start.isLt]
  | cons x xs ih =>
    rw [List.foldl_cons, ih, toNat_add32, Nat.mod_add_mod, List.map_cons, List.sum_cons, Nat.add_assoc]

/-- Settles O17; the sum of a list is the running sum started at 0. -/
theorem shiftDividesAndAdditionWraps : Obligations.ShiftDividesAndAdditionWraps :=
  ⟨toNat_shr, toNat_add32, add32_assoc, fun xs => by simpa using toNat_foldl_add32 xs 0⟩

/-! ## Choose and majority (R103, R104) -/

theorem getLsbD_ch (x y z : U32) {i : Nat} (bit : i < 32) :
    (ch x y z).getLsbD i = if x.getLsbD i then y.getLsbD i else z.getLsbD i := by
  rw [ch, BitVec.getLsbD_xor, BitVec.getLsbD_and, BitVec.getLsbD_and, BitVec.getLsbD_not]
  cases x.getLsbD i <;> simp [bit]

/-- Of three bits, the exclusive or of the pairwise conjunctions is their majority. -/
theorem majority_iff (a b c : Bool) : ((a && b) ^^ (a && c) ^^ (b && c)) = true ↔ 2 ≤ [a, b, c].count true := by
  decide +revert

theorem getLsbD_maj (x y z : U32) (i : Nat) :
    (maj x y z).getLsbD i =
      ((x.getLsbD i && y.getLsbD i) ^^ (x.getLsbD i && z.getLsbD i) ^^ (y.getLsbD i && z.getLsbD i)) := by
  rw [maj, BitVec.getLsbD_xor, BitVec.getLsbD_xor, BitVec.getLsbD_and, BitVec.getLsbD_and, BitVec.getLsbD_and]

/-- Settles O18: x's bit decides which conjunction of Ch is left, and Maj votes on the three bits. -/
theorem chooseSelectsAndMajorityVotes : Obligations.ChooseSelectsAndMajorityVotes := by
  intro x y z i bit
  refine ⟨getLsbD_ch x y z bit, ?_⟩
  rw [getLsbD_maj]
  exact majority_iff _ _ _

/-! ## The sigma functions (R105 to R108) -/

theorem getLsbD_bigSigma0 (x : U32) {i : Nat} (bit : i < 32) :
    (bigSigma0 x).getLsbD i =
      (x.getLsbD ((i + 2) % 32) ^^ x.getLsbD ((i + 13) % 32) ^^ x.getLsbD ((i + 22) % 32)) := by
  simp (disch := omega) only [bigSigma0, BitVec.getLsbD_xor, getLsbD_rotr]

theorem getLsbD_bigSigma1 (x : U32) {i : Nat} (bit : i < 32) :
    (bigSigma1 x).getLsbD i =
      (x.getLsbD ((i + 6) % 32) ^^ x.getLsbD ((i + 11) % 32) ^^ x.getLsbD ((i + 25) % 32)) := by
  simp (disch := omega) only [bigSigma1, BitVec.getLsbD_xor, getLsbD_rotr]

theorem getLsbD_smallSigma0 (x : U32) {i : Nat} (bit : i < 32) :
    (smallSigma0 x).getLsbD i =
      (x.getLsbD ((i + 7) % 32) ^^ x.getLsbD ((i + 18) % 32) ^^ (if i + 3 < 32 then x.getLsbD (i + 3) else false)) := by
  simp (disch := omega) only [smallSigma0, BitVec.getLsbD_xor, getLsbD_rotr, getLsbD_shr]

theorem getLsbD_smallSigma1 (x : U32) {i : Nat} (bit : i < 32) :
    (smallSigma1 x).getLsbD i =
      (x.getLsbD ((i + 17) % 32) ^^ x.getLsbD ((i + 19) % 32) ^^
        (if i + 10 < 32 then x.getLsbD (i + 10) else false)) := by
  simp (disch := omega) only [smallSigma1, BitVec.getLsbD_xor, getLsbD_rotr, getLsbD_shr]

/-- Settles O19, function by function: the exclusive or takes the bits that the rotations and the shift put at `i`. -/
theorem sigmaFunctionsBitByBit : Obligations.SigmaFunctionsBitByBit := fun x _ bit =>
  ⟨getLsbD_bigSigma0 x bit, getLsbD_bigSigma1 x bit, getLsbD_smallSigma0 x bit, getLsbD_smallSigma1 x bit⟩

end Sys2Proof.Machine
end

section
/-! PROOFS. The block accumulator (41_accumulator.md): one APPEND by its counts, its bytes and its refusals, and a list of
error-free APPENDs by the message it carries. -/

namespace Sys2Proof.Machine

/-! ## Lists of good APPENDs (R127, R129) -/

/-- FINALIZE looks neither at which open phase it is in nor at BUSY: its digest is that of the padded pushes. -/
theorem exec_finalize_withPhase {p : Phase} (notFinal : p ≠ .finalized) (busy : Bool) (s : State) :
    ∃ t, exec .finalize (withPhase p busy s) = .next t ∧ t.h = (pushAll (paddingBytes s) s).h := by
  refine ⟨_, exec_finalize_of_open notFinal, ?_⟩
  rw [show paddingBytes (withPhase p busy s) = paddingBytes s from rfl, pushAll_withPhase]
  rfl

/-- Settles O47: each list pushes the bytes it carries and beyond that moves only PHASE and BUSY, which neither the
hashing state nor FINALIZE's digest depends on. -/
theorem fragmentationDoesNotMatter : Obligations.FragmentationDoesNotMatter := by
  intro s as bs notFinal goodAs goodBs sameBytes
  obtain ⟨p, busyA, openA, ranA⟩ := execAll_goodAppends goodAs notFinal
  obtain ⟨q, busyB, openB, ranB⟩ := execAll_goodAppends goodBs notFinal
  rw [← sameBytes] at ranB
  obtain ⟨t', finalA, hA⟩ := exec_finalize_withPhase openA busyA (pushAll (messageOf as) s)
  obtain ⟨u', finalB, hB⟩ := exec_finalize_withPhase openB busyB (pushAll (messageOf as) s)
  exact ⟨_, _, ranA, ranB, rfl, rfl, rfl, fun _ _ => rfl, t', u', finalA, finalB, hA.trans hB.symm⟩

/-- Good APPENDs take the message further by the bytes they carry. -/
theorem Accumulates.execAll_goodAppends {m : List U8} {s : State} (acc : Accumulates m s) {is : List Instr}
    (good : ∀ i ∈ is, isGoodAppend i = true) (notFinal : s.phase ≠ .finalized) :
    ∃ t, execAll is s = .next t ∧ Accumulates (m ++ messageOf is) t := by
  obtain ⟨p, busy, -, ran⟩ := Machine.execAll_goodAppends good notFinal
  exact ⟨_, ran, (acc.pushAll (messageOf is)).congr rfl rfl rfl rfl⟩

/-- Settles O48: INIT and reset leave the empty message, in phase FRESH, and the APPENDs extend it. -/
theorem totalsOverAMessage : Obligations.TotalsOverAMessage := by
  intro is good
  constructor
  · intro s
    have fresh : Accumulates [] (complete (clearErrors (startFresh s))) := accumulates_nil rfl rfl rfl
    rw [execAll_cons (i := .init) rfl]
    exact fresh.execAll_goodAppends good nofun
  · have fresh : Accumulates [] State.reset := accumulates_nil rfl rfl rfl
    exact fresh.execAll_goodAppends good nofun

/-! ## The lanes one APPEND carries (R84, R121) -/

theorem getD_byteLanes (data : U32) {i : Nat} (lane : i < 4) :
    (byteLanes data).getD i 0 = data.extractLsb' (24 - 8 * i) 8 := by
  interval_cases i <;> rfl

theorem getD_appendBytes {len : BitVec 3} (data : U32) {i : Nat} (lane : i < len.toNat) :
    (appendBytes len data).getD i 0 = (byteLanes data).getD i 0 := by
  simp [appendBytes, List.getElem?_take_of_lt lane]

/-! ## One APPEND outside FINALIZED (R120, R121, R124, R125) -/

/-- Settles O24: the counts and the one compression are those of up to 64 pushes, and a block that fills takes no lane
beyond those the APPEND carries. -/
theorem appendCountsBytesAndCompressesAFullBlock : Obligations.AppendCountsBytesAndCompressesAFullBlock := by
  intro s len data legal notFinal
  have carried := appendBytes_length len data legal
  obtain ⟨sameH, sameBlocks⟩ := pushAll_h_blocks (appendBytes len data) s (by omega)
  rw [carried] at sameH sameBlocks
  refine ⟨_, exec_append_of_open legal data notFinal, rfl, rfl, ?_, sameBlocks, sameH.trans ?_⟩
  · rw [← carried]
    exact pushAll_bufLen_toNat _ s
  · split
    · rfl
    · refine congrArg (compress s.h ∘ Vector.ofFn) (funext fun j => ?_)
      rw [getD_appendBytes data (by omega)]

/-- Settles O25: `pushAll_buf` says which lane, if any, lands at an index of BUF; the registers are `pushAll`'s frame. -/
theorem appendStoresItsLanesAndNothingElse : Obligations.AppendStoresItsLanesAndNothingElse := by
  intro s len data legal notFinal
  have bound := s.bufLen.isLt
  have carried := appendBytes_length len data legal
  have landed := pushAll_buf (appendBytes len data) s (by omega)
  rw [carried] at landed
  refine ⟨_, exec_append_of_open legal data notFinal, ?lanes, ?others, ?registers⟩
  case lanes =>
    intro i lane
    have offset : ((s.bufLen.toNat + i) % 64 + 64 - s.bufLen.toNat) % 64 = i := by omega
    refine (landed _ (Nat.mod_lt _ (by decide))).trans ?_
    rw [offset, if_pos lane, getD_appendBytes data lane, getD_byteLanes data (by omega)]
  case others =>
    intro j missed
    have beyond : ¬ (j.val + 64 - s.bufLen.toNat) % 64 < len.toNat := fun lane => missed _ lane (by omega)
    exact (landed j j.isLt).trans (if_neg beyond)
  case registers => simp

/-! ## APPEND 0, and the refusals (R122, R123, R126) -/

/-- Settles O26: APPEND 0 pushes no byte. -/
theorem zeroLengthAppendOnlyMovesPhase : Obligations.ZeroLengthAppendOnlyMovesPhase := fun _ data =>
  ⟨exec_append_of_open (len := 0) (by decide) data, exec_append_of_finalized (len := 0) (by decide) data⟩

/-- Settles O27: the byte count is checked before the phase. -/
theorem appendOfMoreThanFourRaisesErrArg : Obligations.AppendOfMoreThanFourRaisesErrArg := by
  intro s len data long
  have above : 4 < len.toNat := by rcases long with rfl | rfl | rfl <;> decide
  exact exec_append_of_long above data s

/-- Settles O28: both commands check the phase before they push. -/
theorem finalizedRefusesAppendAndFinalize : Obligations.FinalizedRefusesAppendAndFinalize := fun _ final =>
  ⟨fun _ data legal => exec_append_of_finalized legal data final, exec_finalize_of_finalized final⟩

end Sys2Proof.Machine
end

section
/-! PROOFS. The compression core (42_compression.md): the words of a block, the schedule by its recurrence, the rounds
by their index, and the datapath that keeps a 16-word window of the schedule. -/

namespace Sys2Proof.Machine

/-! ## The words of a block (R143) -/

theorem bigEndianWords_length : ∀ bs : List U8, (bigEndianWords bs).length = bs.length / 4
  | [] | [_] | [_, _] | [_, _, _] => by simp [bigEndianWords]
  | _ :: _ :: _ :: _ :: rest => by
    have ih := bigEndianWords_length rest
    simp only [bigEndianWords, List.length_cons]
    omega

theorem bigEndianWords_getElem? (bs : List U8) (i : Nat) (inside : 4 * i + 3 < bs.length) :
    (bigEndianWords bs)[i]? = some (bs[4 * i] ++ bs[4 * i + 1] ++ bs[4 * i + 2] ++ bs[4 * i + 3]) := by
  induction i generalizing bs with
  | zero =>
    match bs, inside with
    | _ :: _ :: _ :: _ :: _, _ => rfl
  | succ i ih =>
    match bs, inside with
    | _ :: _ :: _ :: _ :: rest, inside => exact ih rest (by simp only [List.length_cons] at inside; omega)

theorem blockWords_length (block : Vector U8 64) : (blockWords block).length = 16 := by
  rw [blockWords, bigEndianWords_length, Vector.length_toList]

/-- Settles O20: the words of the block's bytes, four to a word. -/
theorem blockIsSixteenBigEndianWords : Obligations.BlockIsSixteenBigEndianWords := by
  intro block
  refine ⟨blockWords_length block, fun i => ?_⟩
  have inside : 4 * i.val + 3 < block.toList.length := by
    rw [Vector.length_toList]
    omega
  exact bigEndianWords_getElem? block.toList i inside

/-! ## The schedule (R142) -/

/-- The last word added is the next after all before it. -/
theorem extendSchedule_succ (n : Nat) (w : List U32) :
    extendSchedule (n + 1) w = nextScheduleWord (extendSchedule n w) :: extendSchedule n w := by
  induction n generalizing w with
  | zero => rfl
  | succ n ih => exact ih (nextScheduleWord w :: w)

theorem extendSchedule_length (n : Nat) (w : List U32) : (extendSchedule n w).length = w.length + n := by
  induction n with
  | zero => rfl
  | succ n ih => rw [extendSchedule_succ, List.length_cons, ih, Nat.add_assoc]

theorem extendSchedule_prefix (w : List U32) {m n : Nat} (le : m ≤ n) :
    (extendSchedule m w).reverse <+: (extendSchedule n w).reverse := by
  induction n, le using Nat.le_induction with
  | base => exact List.prefix_rfl
  | succ n _ ih =>
    rw [extendSchedule_succ, List.reverse_cons]
    exact ih.trans (List.prefix_append _ _)

theorem expand_length {m : List U32} (words : m.length = 16) : (expand m).length = 64 := by
  rw [expand, List.length_reverse, extendSchedule_length, List.length_reverse, words]

/-- A schedule word is not changed by the words computed after it. -/
theorem expand_getD {m : List U32} (words : m.length = 16) {n t : Nat} (le : n ≤ 48) (early : t < 16 + n) :
    (expand m).getD t 0 = (extendSchedule n m.reverse).reverse.getD t 0 := by
  obtain ⟨later, whole⟩ := extendSchedule_prefix m.reverse le
  rw [expand, ← whole, List.getD_append]
  rwa [List.length_reverse, extendSchedule_length, List.length_reverse, words]

/-- Settles O21: word `t` is the next after `t` words, and those, newest first, are the schedule's first `t`. -/
theorem scheduleFollowsTheRecurrence : Obligations.ScheduleFollowsTheRecurrence := by
  intro m words
  refine ⟨expand_length words, fun t early => ?block, fun t late inside => ?computed⟩
  case block => rw [expand_getD words (Nat.zero_le _) early, extendSchedule, List.reverse_reverse]
  case computed =>
    obtain ⟨n, rfl⟩ := Nat.exists_eq_add_of_le late
    have count : (extendSchedule n m.reverse).length = 16 + n := by
      rw [extendSchedule_length, List.length_reverse, words]
    have newest : (expand m).getD (16 + n) 0 = nextScheduleWord (extendSchedule n m.reverse) := by
      rw [expand_getD words (n := n + 1) (by omega) (by omega), extendSchedule_succ, List.reverse_cons,
        List.getD_append_right _ _ _ _ (by rw [List.length_reverse, count]), List.length_reverse, count, Nat.sub_self]
      rfl
    have back (i : Nat) (near : i < 16) :
        (extendSchedule n m.reverse).getD i 0 = (expand m).getD (16 + n - (i + 1)) 0 := by
      rw [expand_getD words (n := n) (by omega) (by omega), List.getD_reverse _ (by omega), count]
      congr 1
      omega
    rw [newest, nextScheduleWord, back 1 (by decide), back 6 (by decide), back 14 (by decide), back 15 (by decide)]
    rfl

/-! ## The rounds by their index (R145) -/

theorem rounds_eq_foldl_range {w : List U32} (words : w.length = 64) (v : Working) :
    rounds w v = (List.range 64).foldl (fun v t => round (roundConstants.getD t 0) (w.getD t 0) v) v := by
  have pairs : roundConstants.zip w = (List.range 64).map fun t => (roundConstants.getD t 0, w.getD t 0) := by
    have constants : roundConstants.length = 64 := rfl
    refine List.ext_getElem (by simp [constants, words]) fun t left right => ?_
    have inside : t < 64 := by simpa using right
    simp [constants, words, inside]
  rw [rounds, pairs, List.foldl_map]

/-- Settles O22: `round` and `mix` are the statement's assignments. -/
theorem compressRunsSixtyFourRoundsAndMixes : Obligations.CompressRunsSixtyFourRoundsAndMixes := fun h block =>
  ⟨rounds (expand (blockWords block)) (initWorking h),
    rounds_eq_foldl_range (expand_length (blockWords_length block)) (initWorking h), rfl⟩

/-! ## The 16-word window (R149) -/

/-- The next word reads only the 16 newest. -/
theorem nextScheduleWord_append {w : List U32} (enough : 16 ≤ w.length) (old : List U32) :
    nextScheduleWord (w ++ old) = nextScheduleWord w := by
  simp (disch := omega) only [nextScheduleWord, List.getD_append]

/-- Words older than the 16 newest only stay where they are. -/
theorem extendSchedule_append {w : List U32} (enough : 16 ≤ w.length) (old : List U32) (n : Nat) :
    extendSchedule n (w ++ old) = extendSchedule n w ++ old := by
  induction n with
  | zero => rfl
  | succ n ih =>
    rw [extendSchedule_succ, extendSchedule_succ, ih, nextScheduleWord_append (by rw [extendSchedule_length]; omega),
      List.cons_append]

/-- One round of the datapath uses the window's oldest word, drops it, and takes in the next. -/
theorem rollingRound_cons {w : List U32} (rest : w.length = 15) (x k : U32) (v : Working) :
    rollingRound (x :: w, v) k = (w ++ [nextScheduleWord (x :: w).reverse], round k x v) := by
  have width : (x :: w).length = 16 := by rw [List.length_cons, rest]
  simp (disch := omega) only [nextScheduleWord, List.getD_reverse, width]
  rfl

/-- A schedule is its oldest word, and then the schedule of the window from the second word to the next one. -/
theorem extendSchedule_cons {w : List U32} (rest : w.length = 15) (x : U32) (n : Nat) :
    (extendSchedule (n + 1) (x :: w).reverse).reverse =
      x :: (extendSchedule n (w ++ [nextScheduleWord (x :: w).reverse]).reverse).reverse := by
  have oldest (next : U32) : next :: (x :: w).reverse = (w ++ [next]).reverse ++ [x] := by simp
  rw [extendSchedule, oldest, extendSchedule_append (by simp [rest]), List.reverse_concat]

/-- The words that leave the window are the schedule's, oldest first. -/
theorem foldl_rollingRound (ks : List U32) {w : List U32} (width : w.length = 16) (v : Working) :
    (ks.foldl rollingRound (w, v)).2 =
      (ks.zip (extendSchedule ks.length w.reverse).reverse).foldl (fun v kw => round kw.1 kw.2 v) v := by
  induction ks generalizing w v with
  | nil => rfl
  | cons k ks ih =>
    cases w with
    | nil => exact absurd width (by decide)
    | cons x w =>
      have rest : w.length = 15 := Nat.succ.inj width
      rw [List.foldl_cons, rollingRound_cons rest, ih (by simp [rest]), List.length_cons, extendSchedule_cons rest]
      rfl

/-- 64 rounds use no word beyond the schedule's 64. -/
theorem roundConstants_zip_extendSchedule {m : List U32} (words : m.length = 16) :
    roundConstants.zip (extendSchedule 64 m.reverse).reverse = roundConstants.zip (expand m) := by
  obtain ⟨unused, whole⟩ : expand m <+: (extendSchedule 64 m.reverse).reverse :=
    extendSchedule_prefix m.reverse (by decide)
  have lengths : roundConstants.length = (expand m).length := (expand_length words).symm
  rw [← whole]
  simpa using List.zip_append (r₁ := []) (r₂ := unused) lengths

/-- Settles O23: 64 rounds of the window use, in order, the first 64 words of a schedule that goes on. -/
theorem rollingScheduleComputesCompress : Obligations.RollingScheduleComputesCompress := by
  intro h block
  have words := blockWords_length block
  rw [compressRolling, compress, rounds, foldl_rollingRound _ words, ← roundConstants_zip_extendSchedule words]
  rfl

end Sys2Proof.Machine
end

section
/-! PROOFS. Padding and finalisation (43_finalize.md): the length, FINALIZE's end state, the blocks it compresses,
and the digest of a whole message. -/

namespace Sys2Proof.Machine

/-! ## The message length (R172) -/

theorem toNat_messageLength (blocks : U64) (bufLen : BitVec 6) :
    (messageLength blocks bufLen).toNat = (blocks.toNat * 64 * 8 + bufLen.toNat * 8) % 2 ^ 64 := by
  simp only [messageLength, BitVec.toNat_add, BitVec.toNat_mul, BitVec.toNat_setWidth, BitVec.toNat_ofNat]
  omega

/-- Concatenation is addition: the lower part is below the weight of the upper part's least bit. -/
theorem toNat_append_eq_add {v w : Nat} (x : BitVec v) (y : BitVec w) :
    (x ++ y).toNat = x.toNat * 2 ^ w + y.toNat := by
  rw [BitVec.toNat_append, ← Nat.shiftLeft_add_eq_or_of_lt y.isLt, Nat.shiftLeft_eq]

/-- Settles O29: both sides have the formula's value, for BLOCKS * 512 modulo 2^64 keeps the low 55 bits of BLOCKS. -/
theorem messageLengthIsBlocksFillAndThreeZeros : Obligations.MessageLengthIsBlocksFillAndThreeZeros := by
  intro blocks bufLen
  refine ⟨BitVec.eq_of_toNat_eq ?_, toNat_messageLength blocks bufLen⟩
  rw [toNat_messageLength, toNat_append_eq_add, toNat_append_eq_add, BitVec.toNat_setWidth, BitVec.toNat_ofNat]
  omega

/-! ## The end state (R175) -/

/-- Pushes count one block for every 64 bytes, those pending before them included. -/
theorem pushAll_blocks (bs : List U8) (s : State) :
    (pushAll bs s).blocks = s.blocks + BitVec.ofNat 64 ((s.bufLen.toNat + bs.length) / 64) := by
  induction bs generalizing s with
  | nil => simp [Nat.div_eq_of_lt s.bufLen.isLt]
  | cons b bs ih =>
    rw [pushAll_cons, ih, push_blocks, push_bufLen, List.length_cons]
    by_cases full : s.bufLen = 63#6
    · have carry : (63 + (bs.length + 1)) / 64 = 1 + bs.length / 64 := by omega
      simp [full, carry, BitVec.ofNat_add, BitVec.add_assoc]
    · have below : (s.bufLen + 1#6).toNat = s.bufLen.toNat + 1 := by
        have : s.bufLen.toNat ≠ 63 := fun c => full (BitVec.eq_of_toNat_eq c)
        rw [BitVec.toNat_add, BitVec.toNat_ofNat]
        omega
      rw [if_neg full, below, Nat.add_right_comm, Nat.add_assoc]

/-- FINALIZE completes one block, or two when the length no longer fits behind the pending bytes. -/
theorem pushAll_paddingBytes_blocks (s : State) :
    (pushAll (paddingBytes s) s).blocks = s.blocks + (if s.bufLen.toNat ≤ 55 then 1 else 2) := by
  have bound := s.bufLen.isLt
  rw [pushAll_blocks, paddingBytes_length]
  split
  · rw [show (s.bufLen.toNat + ((119 - s.bufLen.toNat) % 64 + 9)) / 64 = 1 by omega]
    rfl
  · rw [show (s.bufLen.toNat + ((119 - s.bufLen.toNat) % 64 + 9)) / 64 = 2 by omega]
    rfl

/-- Settles O30: the padding ends at a block end, and pushes write nothing but `H`, BUF, `BUF_LEN` and BLOCKS. -/
theorem finalizeEndState : Obligations.FinalizeEndState := by
  intro s notFinal
  refine ⟨_, exec_finalize_of_open notFinal, rfl, pushAll_paddingBytes_bufLen s, rfl,
    pushAll_paddingBytes_blocks s, ?_⟩
  simp

/-! ## The blocks FINALIZE compresses (R173, R174) -/

/-- The mark and pushes that end exactly at the block end compress the pending bytes, the mark and those pushes. -/
theorem pushAll_mark_h_of_fills {s : State} {rest : List U8} (fills : s.bufLen.toNat + 1 + rest.length = 64) :
    (pushAll (0x80 :: rest) s).h = compress s.h (Vector.ofFn fun j =>
      if j.val < s.bufLen.toNat then s.buf[j]
      else if j.val = s.bufLen.toNat then 0x80
      else rest.getD (j.val - s.bufLen.toNat - 1) 0) := by
  have length : (0x80 :: rest).length = rest.length + 1 := List.length_cons
  rw [(pushAll_h_blocks (0x80 :: rest) s (by omega)).1, if_neg (by omega)]
  refine congrArg (compress s.h ∘ Vector.ofFn) (funext fun j => ?_)
  split
  · rfl
  · split
    next mark => rw [mark, Nat.sub_self, List.getD_cons_zero]
    next =>
      have later : j.val - s.bufLen.toNat = j.val - s.bufLen.toNat - 1 + 1 := by omega
      rw [later, List.getD_cons_succ, Nat.add_sub_cancel]

theorem getD_lengthBytes (l : U64) {i : Nat} (byte : i < 8) :
    (lengthBytes l).getD i 0 = l.extractLsb' (8 * (7 - i)) 8 := by
  interval_cases i <;> rfl

/-- Steps (b), (c) and (d) of the padding: zeros, then the length. -/
theorem getD_zeros_append_lengthBytes (l : U64) {n i : Nat} (inside : i < n + 8) :
    (List.replicate n 0x00 ++ lengthBytes l).getD i 0 =
      if i < n then 0x00 else l.extractLsb' (8 * (n + 7 - i)) 8 := by
  split
  next zero => rw [List.getD_append _ _ _ _ (by simpa), List.getD_replicate _ zero]
  next field =>
    rw [List.getD_append_right _ _ _ _ (by simpa using field), List.length_replicate, getD_lengthBytes l (by omega),
      show 7 - (i - n) = n + 7 - i by omega]

/-- With at most 55 bytes pending the padding ends with the block it begins in. -/
theorem pushAll_paddingBytes_h_of_le {s : State} (short : s.bufLen.toNat ≤ 55) :
    (pushAll (paddingBytes s) s).h = compress s.h (Vector.ofFn fun j =>
      if j.val < s.bufLen.toNat then s.buf[j]
      else if j.val = s.bufLen.toNat then 0x80
      else if j.val < 56 then 0x00
      else (messageLength s.blocks s.bufLen).extractLsb' (8 * (63 - j.val)) 8) := by
  have zeros : (119 - s.bufLen.toNat) % 64 = 55 - s.bufLen.toNat := by omega
  rw [paddingBytes, zeros, List.cons_append, pushAll_mark_h_of_fills (by simp; omega)]
  refine congrArg (compress s.h ∘ Vector.ofFn) (funext fun j => ?_)
  have bound := j.isLt
  split
  · rfl
  · split
    · rfl
    · have field : j.val - s.bufLen.toNat - 1 < 55 - s.bufLen.toNat ↔ j.val < 56 := by omega
      rw [getD_zeros_append_lengthBytes _ (by omega), if_congr field rfl rfl,
        show 55 - s.bufLen.toNat + 7 - (j.val - s.bufLen.toNat - 1) = 63 - j.val by omega]

/-- With 56 or more bytes pending the mark and zeros fill a block, and 56 zeros and the length a second one. -/
theorem paddingBytes_of_ge {s : State} (long : 56 ≤ s.bufLen.toNat) :
    paddingBytes s = (0x80 :: List.replicate (63 - s.bufLen.toNat) 0x00) ++
      (List.replicate 56 0x00 ++ lengthBytes (messageLength s.blocks s.bufLen)) := by
  have zeros : (119 - s.bufLen.toNat) % 64 = 63 - s.bufLen.toNat + 56 := by have := s.bufLen.isLt; omega
  rw [paddingBytes, zeros, List.replicate_add, List.cons_append, List.cons_append, List.append_assoc]

/-- A block of 56 zeros and the length, pushed into an empty buffer. -/
theorem pushAll_lengthBlock_h (l : U64) {s : State} (empty : s.bufLen = 0#6) :
    (pushAll (List.replicate 56 0x00 ++ lengthBytes l) s).h = compress s.h (Vector.ofFn fun j =>
      if j.val < 56 then 0x00 else l.extractLsb' (8 * (63 - j.val)) 8) := by
  have atStart : s.bufLen.toNat = 0 := congrArg BitVec.toNat empty
  rw [(pushAll_h_blocks _ s (by simp)).1, atStart, if_neg (by simp)]
  refine congrArg (compress s.h ∘ Vector.ofFn) (funext fun j => ?_)
  rw [if_neg (Nat.not_lt_zero _), Nat.sub_zero, getD_zeros_append_lengthBytes l j.isLt]

theorem pushAll_paddingBytes_h_of_ge {s : State} (long : 56 ≤ s.bufLen.toNat) :
    (pushAll (paddingBytes s) s).h = compress
      (compress s.h (Vector.ofFn fun j =>
        if j.val < s.bufLen.toNat then s.buf[j] else if j.val = s.bufLen.toNat then 0x80 else 0x00))
      (Vector.ofFn fun j =>
        if j.val < 56 then 0x00 else (messageLength s.blocks s.bufLen).extractLsb' (8 * (63 - j.val)) 8) := by
  have bound := s.bufLen.isLt
  have fills : s.bufLen.toNat + 1 + (List.replicate (63 - s.bufLen.toNat) (0x00 : U8)).length = 64 := by
    rw [List.length_replicate]; omega
  have emptied : (pushAll (0x80 :: List.replicate (63 - s.bufLen.toNat) 0x00) s).bufLen = 0#6 := by
    apply BitVec.eq_of_toNat_eq
    rw [pushAll_bufLen_toNat, List.length_cons, ← Nat.add_assoc, Nat.add_right_comm, fills]
    rfl
  rw [paddingBytes_of_ge long, pushAll_append, pushAll_lengthBlock_h _ emptied, pushAll_mark_h_of_fills fills]
  refine congrArg (fun first => compress (compress s.h (Vector.ofFn first)) _) (funext fun j => ?_)
  split
  · rfl
  · split
    · rfl
    · exact List.getD_replicate _ (by omega)

/-- Settles O31: the padding is one list of bytes, which ends with the first block or with the second. -/
theorem finalizeCompressesThePaddedBlocks : Obligations.FinalizeCompressesThePaddedBlocks := fun _ notFinal =>
  ⟨_, exec_finalize_of_open notFinal, pushAll_paddingBytes_h_of_le, pushAll_paddingBytes_h_of_ge⟩

/-! ## The digest bytes (R176) -/

/-- Byte `4 i + k` of a string of big-endian words is lane `k` of word `i`. -/
theorem getElem?_flatMap_byteLanes (ws : List U32) {i k : Nat} (word : i < ws.length) (lane : k < 4) :
    (ws.flatMap byteLanes)[4 * i + k]? = some (ws[i].extractLsb' (24 - 8 * k) 8) := by
  induction ws generalizing i with
  | nil => cases word
  | cons w ws ih =>
    rw [List.flatMap_cons]
    cases i with
    | zero =>
      rw [List.getElem?_append_left (by rw [byteLanes_length]; omega)]
      interval_cases k <;> rfl
    | succ i =>
      rw [List.getElem?_append_right (by rw [byteLanes_length]; omega), byteLanes_length,
        show 4 * (i + 1) + k - 4 = 4 * i + k by omega, ih (Nat.lt_of_succ_lt_succ word)]
      rfl

/-- Settles O32: eight words of four lanes each. -/
theorem digestBytesAreBigEndianWords : Obligations.DigestBytesAreBigEndianWords := by
  intro h
  constructor
  · simp [digestBytes, List.length_flatMap]
  · intro i k lane
    exact getElem?_flatMap_byteLanes h.toList (by simp) lane

/-! ## The digest of a whole message (R177) -/

/-- Between INIT and FINALIZE every instruction leaves the core open and takes the message further by the bytes it
carries; one that raises an error carries none. -/
theorem Accumulates.exec_withinMessage {m : List U8} {s : State} (acc : Accumulates m s)
    (notFinal : s.phase ≠ .finalized) {i : Instr} (within : isWithinMessage i = true) :
    ∃ t, exec i s = .next t ∧ t.phase ≠ .finalized ∧ Accumulates (m ++ messageBytes i) t := by
  cases i with
  | init | finalize => cases within
  | append len data =>
    by_cases legal : len.toNat ≤ 4
    · refine ⟨_, exec_goodAppend (i := .append len data) (decide_eq_true legal) notFinal, nofun, ?_⟩
      exact (acc.pushAll _).congr rfl rfl rfl rfl
    · refine ⟨_, exec_append_of_long (Nat.lt_of_not_le legal) data s, notFinal, ?_⟩
      rw [messageBytes, if_neg legal, List.append_nil]
      exact acc.congr rfl rfl rfl rfl
  | clrErr =>
    refine ⟨_, rfl, notFinal, ?_⟩
    rw [messageBytes, List.append_nil]
    exact acc.congr rfl rfl rfl rfl
  | read a =>
    obtain ⟨t, ran⟩ := exec_next (.read a) s
    rw [messageBytes, List.append_nil]
    obtain ⟨w, rfl | rfl⟩ := exec_read_cases ran
    · exact ⟨_, ran, notFinal, acc.congr rfl rfl rfl rfl⟩
    · exact ⟨_, ran, notFinal, acc.congr rfl rfl rfl rfl⟩

theorem Accumulates.execAll_withinMessage {m : List U8} {s : State} (acc : Accumulates m s)
    (notFinal : s.phase ≠ .finalized) {is : List Instr} (within : ∀ i ∈ is, isWithinMessage i = true) :
    ∃ t, execAll is s = .next t ∧ t.phase ≠ .finalized ∧ Accumulates (m ++ messageOf is) t := by
  induction is generalizing m s with
  | nil => exact ⟨s, rfl, notFinal, by simpa using acc⟩
  | cons i is ih =>
    obtain ⟨withinFirst, withinRest⟩ := List.forall_mem_cons.mp within
    obtain ⟨u, first, notFinalU, accU⟩ := acc.exec_withinMessage notFinal withinFirst
    obtain ⟨t, rest, notFinalT, accT⟩ := ih accU notFinalU withinRest
    refine ⟨t, (execAll_cons first is).trans rest, notFinalT, ?_⟩
    rwa [messageOf_cons, ← List.append_assoc]

theorem length_padded_div (m : List U8) : (Machine.padded m).length / 64 = (m.length + 8) / 64 + 1 := by
  simp only [Machine.padded, padding, List.length_append, List.length_cons, List.length_replicate, lengthBytes_length]
  omega

/-- FINALIZE after a message leaves its digest and the number of its padded blocks. -/
theorem Accumulates.exec_finalize {m : List U8} {s : State} (acc : Accumulates m s)
    (notFinal : s.phase ≠ .finalized) :
    ∃ t, exec .finalize s = .next t ∧ t.phase = .finalized ∧ t.h = sha256 m ∧
      t.blocks = BitVec.ofNat 64 ((m.length + 8) / 64 + 1) := by
  refine ⟨_, exec_finalize_of_open notFinal, rfl, acc.padded.h, ?_⟩
  rw [← length_padded_div]
  exact acc.padded.blocks

/-- Settles O49: INIT starts the empty message, the instructions after it extend the message by what they carry, and
FINALIZE pads it. (The bound on the message is not needed: `sha256` and the core wrap the length alike, R172.) -/
theorem digestIsSha256OfTheMessage : Obligations.DigestIsSha256OfTheMessage := by
  intro s is within _
  have fresh : Accumulates [] (complete (clearErrors (startFresh s))) := accumulates_nil rfl rfl rfl
  obtain ⟨u, ran, notFinal, acc⟩ := fresh.execAll_withinMessage nofun within
  obtain ⟨t, final, holds⟩ := acc.exec_finalize notFinal
  refine ⟨t, ?_, holds⟩
  rw [List.cons_append, execAll_cons (i := .init) rfl, execAll_append ran, execAll_cons final]
  rfl

end Sys2Proof.Machine
end

section
/-! PROOFS. Lifecycle control (44_control.md): the effect of INIT and of CLR_ERR, and the independence of what follows
an INIT from what came before it. -/

namespace Sys2Proof.Machine

/-! ## INIT and CLR_ERR (R190, R191) -/

/-- Settles O33: the fresh Hasher of `startFresh` has the IV of R140, and the error bits and BUSY are cleared. -/
theorem initStartsAFreshHasher : Obligations.InitStartsAFreshHasher := fun _ => rfl

/-- Settles O34: `clearErrors` and the completion write the three error bits and BUSY, and nothing else. -/
theorem clrErrClearsOnlyTheErrorBits : Obligations.ClrErrClearsOnlyTheErrorBits := fun _ => rfl

/-! ## The hashing state by itself (R196)

Two states of any history differ in what lies around the hashing state: the ports, the reset line, the host's record and
the draws. With these set aside, the states that hash alike are those that are indistinguishable (10_state.md R41). -/

/-- The hashing state and the error bits by themselves: what lies around them is as `State.reset` has it. -/
def isolated (s : State) : State :=
  { s with busy := false, pending := 0, resetLine := false, script := [], received := [], draws := 0 }

theorem push_isolated (b : U8) (s : State) : push b (isolated s) = isolated (push b s) := by
  by_cases full : s.bufLen = 63#6 <;> simp [push, isolated, blockReady, full]

theorem pushAll_isolated (bs : List U8) (s : State) : pushAll bs (isolated s) = isolated (pushAll bs s) := by
  induction bs generalizing s with
  | nil => rfl
  | cons b bs ih => rw [pushAll_cons, push_isolated, ih, pushAll_cons]

theorem raise_isolated (e : ErrorClass) (s : State) : raise e (isolated s) = isolated (raise e s) := by
  cases e <;> rfl

theorem paddingBytes_isolated (s : State) : paddingBytes (isolated s) = paddingBytes s := rfl

/-- Equal `H`, BUF_LEN, BLOCKS, PHASE, error bits and pending bytes. -/
def HashesAlike (s t : State) : Prop := Indistinguishable (isolated s) (isolated t)

/-- INIT leaves the same hashing state whatever the two states were: the pending bytes agree because there are none. -/
theorem HashesAlike.fresh (s t : State) :
    HashesAlike (complete (clearErrors (startFresh s))) (complete (clearErrors (startFresh t))) where
  h := rfl
  bufLen := rfl
  blocks := rfl
  phase := rfl
  errOpc := rfl
  errArg := rfl
  errState := rfl
  busy := rfl
  resetLine := rfl
  script := rfl
  received := rfl
  draws := rfl
  pendingBytes := nofun
  pending := nofun

section
variable {s t : State} (alike : HashesAlike s t)
include alike

theorem HashesAlike.phase_eq : s.phase = t.phase := alike.phase

theorem HashesAlike.paddingBytes_eq : paddingBytes s = paddingBytes t := by
  rw [← paddingBytes_isolated s, ← paddingBytes_isolated t]
  exact Indistinguishable.paddingBytes_eq alike

theorem HashesAlike.raise (e : ErrorClass) : HashesAlike (raise e s) (raise e t) := by
  rw [HashesAlike, ← raise_isolated, ← raise_isolated]
  exact Indistinguishable.raise alike e

theorem HashesAlike.pushAll (bs : List U8) : HashesAlike (pushAll bs s) (pushAll bs t) := by
  rw [HashesAlike, ← pushAll_isolated, ← pushAll_isolated]
  exact Indistinguishable.pushAll alike bs

/-- The free values that a FINALIZE draws for BUF may differ, but none of them is a pending byte: BUF_LEN is 0. -/
theorem HashesAlike.freeze :
    HashesAlike (complete (countDraw (forgetBuf { Machine.pushAll (paddingBytes s) s with phase := .finalized })))
      (complete (countDraw (forgetBuf { Machine.pushAll (paddingBytes t) t with phase := .finalized }))) := by
  have padded := alike.pushAll (paddingBytes s)
  have noneLeft {j : Nat} (pending : j < (Machine.pushAll (paddingBytes s) s).bufLen.toNat) : False := by
    rw [pushAll_paddingBytes_bufLen] at pending
    exact Nat.not_lt_zero j pending
  rw [← alike.paddingBytes_eq]
  exact { padded.setPhase .finalized with pendingBytes := fun _ pending => (noneLeft pending).elim }

/-- A command takes states that hash alike to states that hash alike. -/
theorem HashesAlike.exec {i : Instr} (command : isCommand i = true) :
    ∃ s' t', exec i s = .next s' ∧ exec i t = .next t' ∧ HashesAlike s' t' := by
  cases i with
  | init => exact ⟨_, _, rfl, rfl, .fresh s t⟩
  | clrErr => exact ⟨_, _, rfl, rfl, Indistinguishable.clearErrors alike⟩
  | append len data =>
    by_cases legal : len.toNat ≤ 4
    · by_cases final : s.phase = .finalized
      · exact ⟨_, _, exec_append_of_finalized legal data final,
          exec_append_of_finalized legal data (alike.phase_eq ▸ final), alike.raise .state⟩
      · exact ⟨_, _, exec_append_of_open legal data final, exec_append_of_open legal data (alike.phase_eq ▸ final),
          (alike.pushAll _).setPhase .accumulating⟩
    · have long := Nat.lt_of_not_le legal
      exact ⟨_, _, exec_append_of_long long data s, exec_append_of_long long data t, alike.raise .arg⟩
  | finalize =>
    by_cases final : s.phase = .finalized
    · exact ⟨_, _, exec_finalize_of_finalized final, exec_finalize_of_finalized (alike.phase_eq ▸ final),
        alike.raise .state⟩
    · exact ⟨_, _, exec_finalize_of_open final, exec_finalize_of_open (alike.phase_eq ▸ final), alike.freeze⟩
  | read a => cases command

end

theorem HashesAlike.execAll {s t : State} (alike : HashesAlike s t) {is : List Instr}
    (commands : ∀ i ∈ is, isCommand i = true) :
    ∃ s' t', execAll is s = .next s' ∧ execAll is t = .next t' ∧ HashesAlike s' t' := by
  induction is generalizing s t with
  | nil => exact ⟨s, t, rfl, rfl, alike⟩
  | cons i is ih =>
    obtain ⟨first, later⟩ := List.forall_mem_cons.mp commands
    obtain ⟨s₁, t₁, ranS, ranT, alike₁⟩ := alike.exec first
    obtain ⟨s', t', restS, restT, alike'⟩ := ih alike₁ later
    exact ⟨s', t', (execAll_cons ranS is).trans restS, (execAll_cons ranT is).trans restT, alike'⟩

/-- Settles O51: INIT makes any two states hash alike, and every command after it keeps them so. -/
theorem initMakesOperationsIndependent : Obligations.InitMakesOperationsIndependent := by
  intro s t is commands
  rw [execAll_cons (s := s) (i := .init) rfl, execAll_cons (s := t) (i := .init) rfl]
  obtain ⟨s', t', ranS, ranT, alike⟩ := (HashesAlike.fresh s t).execAll commands
  exact ⟨s', t', ranS, ranT, alike.h, alike.bufLen, alike.blocks, alike.phase, alike.errOpc, alike.errArg,
    alike.errState, alike.pendingBytes⟩

end Sys2Proof.Machine
end

section
/-! PROOFS. Exceptions (60_exceptions.md): what an error changes, what a step runs, and that nothing stops the
machine. -/

namespace Sys2Proof.Machine

/-! ## Errors (R211, R213) -/

/-- An instruction raises ERR_ARG, raises ERR_STATE, or sets no error bit that was clear. -/
theorem exec_raises_or_keepsErrors {i : Instr} {s t : State} (h : exec i s = .next t) :
    t = raise .arg s ∨ t = raise .state s ∨ KeepsErrors t s := by
  rcases exec_cases h with ⟨-, rfl⟩ | ⟨-, rfl⟩ | ⟨_, _, -, -, raised⟩ | ⟨_, _, -, -, -, raised⟩ |
    ⟨_, _, -, -, -, rfl⟩ | ⟨-, -, raised⟩ | ⟨-, -, rfl⟩ | ⟨_, -, -, -, rfl⟩ | ⟨_, _, -, -, rfl⟩
  · exact .inr (.inr ⟨nofun, nofun, nofun⟩)
  · exact .inr (.inr ⟨nofun, nofun, nofun⟩)
  · exact .inl raised
  · exact .inr (.inl raised)
  · exact .inr (.inr (.of_eq (by simp) (by simp) (by simp)))
  · exact .inr (.inl raised)
  · exact .inr (.inr (.of_eq (by simp) (by simp) (by simp)))
  · exact .inr (.inr (.of_eq rfl rfl rfl))
  · exact .inr (.inr (.of_eq rfl rfl rfl))

/-- Settles O39: only `raise` sets a bit that was clear, and it sets its own bit, clears BUSY and does nothing else. -/
theorem anErrorSetsOneBitAndKeepsTheRest : Obligations.AnErrorSetsOneBitAndKeepsTheRest := by
  intro i s t h
  have conflict {b : Bool} {p : Prop} (clear : b = false) (set : b = true) : p := by simp [clear] at set
  rcases exec_raises_or_keepsErrors h with rfl | rfl | ⟨opc, arg, state⟩
  · exact ⟨conflict, fun _ _ => rfl, conflict⟩
  · exact ⟨conflict, conflict, fun _ _ => rfl⟩
  · exact ⟨fun clear set => conflict clear (opc set), fun clear set => conflict clear (arg set),
      fun clear set => conflict clear (state set)⟩

/-! ## The instruction a step runs (R212, 70_reset_and_hazards.md R235) -/

/-- A step whose schedule completes a word that decodes is the word's instruction. -/
theorem step_of_schedule_pending {s : State} {i : Instr} {rest : List Event}
    (chosen : schedule s = (.run (.command s.pending), rest)) (decoded : decodeCommand s.pending = .ok i) :
    step s = exec i (withScript rest s) := by
  rw [step_of_schedule chosen, perform_run_command_ok decoded]

/-- Settles O8: a pause, the end of the script and a held word each let the busy core complete PENDING; a read acts at
once. When a completion happens is the model's own schedule (notes/assumptions/1.md). -/
theorem stepRunsTheDecodedInstruction : Obligations.StepRunsTheDecodedInstruction := by
  refine ⟨fun s i busy released decoded => ?_, fun s a rest script => step_read script⟩
  have keepingScript (chosen : schedule s = (.run (.command s.pending), s.script)) : step s = exec i s :=
    step_of_schedule_pending chosen decoded
  refine ⟨fun rest script => ?_, fun script => ?_, fun held rest script => ?_⟩
  · exact step_of_schedule_pending (by simp [schedule, script, released, busy]) decoded
  · exact keepingScript (by simp [schedule, script, released, busy])
  · exact keepingScript (by simp [schedule, script, released, busy])

/-! ## Nothing stops the machine (R215) -/

/-- Every action answers a next state: of what runs, a command word completes, legal or not, and a read answers. -/
theorem perform_next (a : Action) (s : State) : ∃ t, perform a s = .next t := by
  cases a with
  | run w =>
    cases w with
    | command cw => exact run_command_next cw s
    | readAddress a => exact exec_next (.read a) s
  | accept cw => exact ⟨_, perform_accept cw s⟩
  | assertReset => exact ⟨_, perform_assertReset s⟩
  | releaseReset => exact ⟨_, perform_releaseReset s⟩
  | idle => exact ⟨_, perform_idle s⟩

/-- Settles O11: a step performs the action its schedule chose, and every action answers. -/
theorem everyStepAnswersANextState : Obligations.EveryStepAnswersANextState := fun _ =>
  perform_next _ _

end Sys2Proof.Machine
end

section
/-! PROOFS. Reset and hazards (70_reset_and_hazards.md): the reset input, the handshake, completion and reads while
idle. -/

namespace Sys2Proof.Machine

/-! ## The reset input (R230, R231) -/

/-- Every element that R230 gives a value has it, as in `State.reset`. -/
structure HasResetValues (s : State) : Prop where
  h : s.h = iv
  bufLen : s.bufLen = 0
  blocks : s.blocks = 0
  phase : s.phase = .fresh
  errOpc : s.errOpc = false
  errArg : s.errArg = false
  errState : s.errState = false
  busy : s.busy = false

theorem hasResetValues_assertReset (s : State) : HasResetValues (assertReset s) :=
  ⟨rfl, rfl, rfl, rfl, rfl, rfl, rfl, rfl⟩

/-- While reset is asserted the elements have their reset values. -/
theorem Invariant.hasResetValues {s : State} (inv : Invariant s) (asserted : s.resetLine = true) :
    HasResetValues s := by
  obtain ⟨busy, phase, errOpc, errArg, errState⟩ := inv.held asserted
  obtain ⟨bufLen, blocks, h⟩ := inv.fresh phase
  exact ⟨h, bufLen, blocks, phase, errOpc, errArg, errState, busy⟩

/-- What the host sends and receives, the reset input and the draw counter are none of the elements. -/
theorem HasResetValues.congr {s t : State} (v : HasResetValues s)
    (same : t = { s with resetLine := t.resetLine, script := t.script, received := t.received, draws := t.draws }) :
    HasResetValues t := by
  rw [same]
  exact ⟨v.h, v.bufLen, v.blocks, v.phase, v.errOpc, v.errArg, v.errState, v.busy⟩

/-- With reset asserted a step moves the reset input, lets an event pass or makes a read. -/
theorem HasResetValues.step {s t : State} (v : HasResetValues s) (asserted : s.resetLine = true)
    (h : step s = .next t) : HasResetValues t := by
  have notReleased {p : Prop} (released : s.resetLine = false) : p := by simp [asserted] at released
  cases stepEffect_of_step h with
  | assertReset => exact hasResetValues_assertReset _
  | releaseReset => exact v.congr rfl
  | accept _ released _ => exact notReleased released
  | idle => exact v.congr rfl
  | read _ ran => obtain ⟨w, rfl | rfl⟩ := exec_read_cases ran <;> exact v.congr rfl
  | command _ released _ _ _ => exact notReleased released
  | illegal _ released _ _ => exact notReleased released

/-- A word offered while reset is asserted stays with the host until reset is released (notes/assumptions/3.md). -/
theorem step_offer_of_asserted {s : State} {cw : U64} {rest : List Event} (script : s.script = .offer cw :: rest)
    (asserted : s.resetLine = true) : step s = .next (releaseReset s) :=
  step_of_schedule (a := .releaseReset) (rest := s.script) (by simp [schedule, script, asserted])

/-- Settles O3: a step keeps the reset values the invariant gives. That an offered word stays with the host and lets
reset be released is the model's own choice (notes/assumptions/3.md). -/
theorem nothingMovesWhileResetIsAsserted : Obligations.NothingMovesWhileResetIsAsserted := by
  intro s t inv asserted h
  obtain ⟨hash, bufLen, blocks, phase, errOpc, errArg, errState, busy⟩ := (inv.hasResetValues asserted).step asserted h
  refine ⟨busy, phase, hash, bufLen, blocks, errOpc, errArg, errState, fun cw rest script => ?_⟩
  rw [step_offer_of_asserted script asserted] at h
  cases h
  exact ⟨rfl, rfl⟩

/-- The reset input acts at once, whatever the core is doing. -/
theorem step_assertReset {s : State} {rest : List Event} (script : s.script = .assertReset :: rest) :
    step s = .next (assertReset (withScript rest s)) :=
  step_of_schedule (a := .assertReset) (by simp [schedule, script])

/-- Settles O2: the reset event writes every element, so nothing of the command under way is left. -/
theorem assertingResetRestoresEveryElement : Obligations.AssertingResetRestoresEveryElement := by
  intro s rest script
  obtain ⟨h, bufLen, blocks, phase, errOpc, errArg, errState, busy⟩ := hasResetValues_assertReset (withScript rest s)
  exact ⟨_, step_assertReset script, h, bufLen, blocks, phase, errOpc, errArg, errState, busy, rfl, rfl, rfl⟩

/-! ## The handshake (R234) -/

section
variable {s : State} {cw : U64} {rest : List Event} (script : s.script = .offer cw :: rest)
  (released : s.resetLine = false)
include script released

/-- An idle core accepts the offered word. -/
theorem step_offer_of_idle (idle : s.busy = false) : step s = .next (accept cw (withScript rest s)) :=
  step_of_schedule (a := .accept cw) (by simp [schedule, script, released, idle])

/-- A busy core completes its own word and leaves the offered one with the host. -/
theorem step_offer_of_busy (busy : s.busy = true) : step s = perform (.run (.command s.pending)) s :=
  step_of_schedule (rest := s.script) (by simp [schedule, script, released, busy])

end

/-- Settles O10: a completion frees the command port and leaves the script alone, so the step after it is an idle core's
acceptance. That the held word is what lets the busy core complete is the model's own schedule
(notes/assumptions/1.md). -/
theorem handshakeAcceptsOnlyWhenIdle : Obligations.HandshakeAcceptsOnlyWhenIdle := by
  intro s cw rest script released
  refine ⟨step_offer_of_idle script released, fun busy => ?_⟩
  obtain ⟨t, ran⟩ := run_command_next s.pending s
  obtain ⟨idle, -, sameScript, sameLine⟩ := run_command_frame ran
  exact ⟨t, (step_offer_of_busy script released busy).trans ran, idle, sameScript,
    step_offer_of_idle (sameScript.trans script) (sameLine.trans released) idle⟩

/-! ## Completion (R235, R238) -/

/-- A step of a busy core makes it idle, or uses up one event of the script. -/
theorem step_of_busy {s : State} (busy : s.busy = true) (released : s.resetLine = false) :
    ∃ t, step s = .next t ∧ (t.busy = false ∨ t.resetLine = false ∧ ∃ event, s.script = event :: t.script) := by
  have completes {rest : List Event} (chosen : schedule s = (.run (.command s.pending), rest)) :
      ∃ t, step s = .next t ∧ t.busy = false := by
    obtain ⟨t, ran⟩ := run_command_next s.pending (withScript rest s)
    exact ⟨t, (step_of_schedule chosen).trans ran, (run_command_frame ran).1⟩
  rcases schedule_cases s with ⟨rest, script, c⟩ | ⟨rest, script, c⟩ | ⟨a, rest, script, c⟩ | ⟨_, _, -, asserted, -⟩ |
    ⟨_, _, -, -, -, c⟩ | ⟨_, _, -, -, idle, -⟩ | ⟨-, -, -, c⟩ | ⟨-, stopped, -⟩
  · exact ⟨_, step_assertReset script, .inl rfl⟩
  · exact ⟨releaseReset (withScript rest s), step_of_schedule c, .inr ⟨rfl, _, script⟩⟩
  · obtain ⟨t, ran⟩ := exec_next (.read a) (withScript rest s)
    obtain ⟨-, sameScript, sameLine⟩ := exec_port_frame ran
    exact ⟨t, (step_read script).trans ran, .inr ⟨sameLine.trans released, .read a, by rw [sameScript]; exact script⟩⟩
  · simp [released] at asserted
  · exact (completes c).imp fun _ done => done.imp_right .inl
  · simp [busy] at idle
  · exact (completes c).imp fun _ done => done.imp_right .inl
  · simp [released, busy] at stopped

/-- With reset released the core becomes idle: each step it stays busy uses up an event, and a busy core without events
completes. -/
theorem runFor_becomes_idle {s : State} (released : s.resetLine = false) :
    ∃ k t, k ≤ s.script.length + 1 ∧ runFor k s = .next t ∧ t.busy = false := by
  cases busy : s.busy with
  | false => exact ⟨0, s, Nat.zero_le _, runFor_zero s, busy⟩
  | true =>
    obtain ⟨t, first, idle | ⟨released', event, used⟩⟩ := step_of_busy busy released
    · exact ⟨1, t, Nat.le_add_left .., runFor_succ first 0, idle⟩
    · obtain ⟨k, u, bound, run, idle⟩ := runFor_becomes_idle released'
      exact ⟨k + 1, u, by simpa [used] using bound, (runFor_succ first k).trans run, idle⟩
termination_by s.script.length
decreasing_by simp [used]

/-- Settles O12: while reset is asserted the core is idle already, and with reset released it becomes idle. The bound is
the model's own schedule (notes/assumptions/1.md). -/
theorem completionAlwaysHappens : Obligations.CompletionAlwaysHappens := by
  intro s inv
  cases line : s.resetLine with
  | true => exact ⟨0, s, Nat.zero_le _, runFor_zero s, (inv.held line).1⟩
  | false => exact runFor_becomes_idle line

/-! ## Reads while idle (R237, 20_memory.md R67) -/

/-- Settles O38, by the induction over the reads in `runFor_reads`. -/
theorem readsWithoutCommandsAreConsistent : Obligations.ReadsWithoutCommandsAreConsistent :=
  fun _ as rest idle released script => runFor_reads as rest idle released script

end Sys2Proof.Machine
end

section
/-! PROOFS. The placed word: the step after `place`, the model's own convention (notes/assumptions/2.md and 14.md). -/

namespace Sys2Proof.Machine

/-- A table word gives an instruction exactly when its port word decodes to it. -/
theorem decodeTableWord_eq_some_iff {nbits w : Nat} {i : Instr} :
    decodeTableWord nbits w = some i ↔ decode (tableWord nbits w) = .ok i := by
  unfold decodeTableWord
  cases decode (tableWord nbits w) <;> simp [Except.toOption]

/-- The pause placed with a command word is used up by the word's completion. -/
theorem step_place_command {cw : U64} {i : Instr} (decoded : decodeCommand cw = .ok i) (s : State) :
    step (place (.command cw) s) = exec i { accept cw s with resetLine := false } :=
  step_of_schedule_pending (s := place (.command cw) s) (rest := s.script) rfl decoded

/-- The read event placed with an address is used up by the read. -/
theorem step_place_readAddress (a : U8) (s : State) : step (place (.readAddress a) s) = exec (.read a) s :=
  step_read (s := place (.readAddress a) s) (rest := s.script) rfl

/-- Settles O9: a placed command word completes on the state that accepted it, and a placed address is read on the state
itself. The placement is the model's own convention (notes/assumptions/2.md and 14.md). -/
theorem placedWordIsRunNext : Obligations.PlacedWordIsRunNext := by
  intro s nbits w i table
  have decoded := decodeTableWord_eq_some_iff.mp table
  unfold State.withFetchWord
  cases port : tableWord nbits w with
  | command cw =>
    rw [port] at decoded
    exact ⟨_, step_place_command decoded s, by simp⟩
  | readAddress a =>
    rw [port] at decoded
    obtain rfl : .read a = i := Except.ok.inj decoded
    exact ⟨s, step_place_readAddress a s, by simp⟩

end Sys2Proof.Machine
end
